-- ==== Sys2Proof/Word.lean ====
section
/-! DEFINITION. The value types of CORE (00_scope.md R6, R8): every quantity is unsigned and
fixed in width, so each is a bit vector whose arithmetic wraps at its width. -/

namespace Sys2Proof

/-- `XLEN`: a V register, DT, ST, SP, the key latch, a random byte, a memory or display byte. -/
abbrev Byte := BitVec 8

/-- `ALEN` and `ILEN`: I, PC, a stack slot, an instruction word. -/
abbrev Word := BitVec 16

/-- Half a byte: one of the four nibbles of an instruction word (R12). -/
abbrev Nibble := BitVec 4

/-- An index into the V file, 0 to 15 (R20). -/
abbrev Reg := Fin 16

end Sys2Proof
end

