-- ==== Sys2Proof/Config.lean ====
section
/-! DEFINITION. What an implementation fixes: the fixed parameters of 00_scope.md R6 and the open
parameters of R7. The open ones that the spec leaves without a value are opaque constants, so that
nothing can be proved of their value; FONT is an argument of reset, with the default of
Machine/Font.lean. -/

namespace Sys2Proof.Config

/-- `MEM_SIZE` (R6): bytes of main memory, addresses 0x000 to 0xFFF. -/
def memSize : Nat := 4096

/-- `PROG_BASE` (R6): first byte of the ROM image and the reset value of PC. -/
def progBase : Nat := 0x200

/-- `ROM_MAX` (R6): the largest ROM image reset accepts. -/
def romMax : Nat := 3584

/-- `GLYPH_LEN` (R6): bytes per glyph, the multiplier of Fx29. -/
def glyphLen : Nat := 5

/-- `DISP_STRIDE` (R6): framebuffer bytes per pixel row. -/
def dispStride : Nat := 8

/-- The random byte of the k-th execution of Cxnn (R31, R143, D19): a FREE VALUE, one fresh and
unconstrained byte per draw (log entry 6). -/
opaque randomByte : Nat → Byte

/-- By how much `KEY_NONE` exceeds 16: unconstrained below 240 (log entry 5). -/
opaque keyNoneExcess : Fin 240

/-- `KEY_NONE` (R7, R30, D17): the reserved no-key value, some byte above 15; which one is OPEN. -/
def keyNone : Byte := BitVec.ofNat 8 (16 + keyNoneExcess.val)

/-- What the key latch holds before the host first writes it (R30, N12): a FREE VALUE, neither 0 nor
`KEY_NONE` may be assumed (log entry 4). -/
opaque keyAtReset : Byte

/-- `PIXEL_MSB_LEFT` (R7, R66, D22): whether bit 7 of a display byte is its leftmost column; read by
the renderer's view alone, never by CORE (log entry 10). -/
opaque pixelMsbLeft : Bool

end Sys2Proof.Config
end

