-- ==== Sys2Proof/Syntax.lean ====
section
/-! DEFINITION. The instruction set: one constructor per row of spec/opcode_table.json, in the
table's order (30_encoding.md R84). The operand types are exactly the fields of R83, so every term
of `Instr` is a well-formed instruction. -/

namespace Sys2Proof

/-- The 34 instructions of 30_encoding.md R84. `x` and `y` index the V file, `nn` is the immediate
byte, `nnn` the 12-bit address, `n` the row count of Dxyn. -/
inductive Instr where
  /-- 00E0 CLS, R170. -/
  | cls
  /-- 00EE RET, R120. -/
  | ret
  /-- 1nnn JP nnn, R121. -/
  | jp (nnn : BitVec 12)
  /-- 2nnn CALL nnn, R122. -/
  | call (nnn : BitVec 12)
  /-- 3xnn SE Vx, nn, R130. -/
  | seImm (x : Reg) (nn : Byte)
  /-- 4xnn SNE Vx, nn, R131. -/
  | sneImm (x : Reg) (nn : Byte)
  /-- 5xy0 SE Vx, Vy, R132. -/
  | seReg (x y : Reg)
  /-- 6xnn LD Vx, nn, R140. -/
  | ldImm (x : Reg) (nn : Byte)
  /-- 7xnn ADD Vx, nn, R141. -/
  | addImm (x : Reg) (nn : Byte)
  /-- 8xy0 LD Vx, Vy (on this hardware an add without flag), R150. -/
  | ldReg (x y : Reg)
  /-- 8xy1 OR Vx, Vy, R151. -/
  | orReg (x y : Reg)
  /-- 8xy2 AND Vx, Vy, R152. -/
  | andReg (x y : Reg)
  /-- 8xy3 XOR Vx, Vy, R153. -/
  | xorReg (x y : Reg)
  /-- 8xy4 ADD Vx, Vy, R154. -/
  | addReg (x y : Reg)
  /-- 8xy5 SUB Vx, Vy, R155. -/
  | subReg (x y : Reg)
  /-- 8xy6 SHR Vx, R156. `y` is decoded and ignored (R88). -/
  | shr (x y : Reg)
  /-- 8xy7 SUBN Vx, Vy, R157. -/
  | subnReg (x y : Reg)
  /-- 8xyE SHL Vx, R158. `y` is decoded and ignored (R88). -/
  | shl (x y : Reg)
  /-- 9xy0 SNE Vx, Vy, R133. -/
  | sneReg (x y : Reg)
  /-- Annn LD I, nnn, R142. -/
  | ldI (nnn : BitVec 12)
  /-- Bnnn JP V0, nnn, R123. -/
  | jpV0 (nnn : BitVec 12)
  /-- Cxnn RND Vx, nn, R143. -/
  | rnd (x : Reg) (nn : Byte)
  /-- Dxyn DRW Vx, Vy, n, R171. -/
  | drw (x y : Reg) (n : Nibble)
  /-- Ex9E SKP Vx, R134. -/
  | skp (x : Reg)
  /-- ExA1 SKNP Vx, R135. -/
  | sknp (x : Reg)
  /-- Fx07 LD Vx, DT, R180. -/
  | ldVxDt (x : Reg)
  /-- Fx0A LD Vx, K, R181. -/
  | ldVxK (x : Reg)
  /-- Fx15 LD DT, Vx, R182. -/
  | ldDtVx (x : Reg)
  /-- Fx18 LD ST, Vx, R183. -/
  | ldStVx (x : Reg)
  /-- Fx1E ADD I, Vx, R190. -/
  | addI (x : Reg)
  /-- Fx29 LD F, Vx, R191. -/
  | ldF (x : Reg)
  /-- Fx33 LD B, Vx, R192. -/
  | ldB (x : Reg)
  /-- Fx55 LD [I], Vx, R193. -/
  | storeRegs (x : Reg)
  /-- Fx65 LD Vx, [I], R194. -/
  | loadRegs (x : Reg)
  deriving DecidableEq, Repr

/-- The row of spec/opcode_table.json an instruction belongs to, as the table spells it. -/
def Instr.mnemonic : Instr → String
  | .cls => "CLS"
  | .ret => "RET"
  | .jp _ => "JP_nnn"
  | .call _ => "CALL_nnn"
  | .seImm _ _ => "SE_Vx__nn"
  | .sneImm _ _ => "SNE_Vx__nn"
  | .seReg _ _ => "SE_Vx__Vy"
  | .ldImm _ _ => "LD_Vx__nn"
  | .addImm _ _ => "ADD_Vx__nn"
  | .ldReg _ _ => "LD_Vx__Vy"
  | .orReg _ _ => "OR_Vx__Vy"
  | .andReg _ _ => "AND_Vx__Vy"
  | .xorReg _ _ => "XOR_Vx__Vy"
  | .addReg _ _ => "ADD_Vx__Vy"
  | .subReg _ _ => "SUB_Vx__Vy"
  | .shr _ _ => "SHR_Vx"
  | .subnReg _ _ => "SUBN_Vx__Vy"
  | .shl _ _ => "SHL_Vx"
  | .sneReg _ _ => "SNE_Vx__Vy"
  | .ldI _ => "LD_I__nnn"
  | .jpV0 _ => "JP_V0__nnn"
  | .rnd _ _ => "RND_Vx__nn"
  | .drw _ _ _ => "DRW_Vx__Vy__n"
  | .skp _ => "SKP_Vx"
  | .sknp _ => "SKNP_Vx"
  | .ldVxDt _ => "LD_Vx__DT"
  | .ldVxK _ => "LD_Vx__K"
  | .ldDtVx _ => "LD_DT__Vx"
  | .ldStVx _ => "LD_ST__Vx"
  | .addI _ => "ADD_I__Vx"
  | .ldF _ => "LD_F__Vx"
  | .ldB _ => "LD_B__Vx"
  | .storeRegs _ => "LD__I___Vx"
  | .loadRegs _ => "LD_Vx___I"

end Sys2Proof
end

