-- ==== Sys2Proof/WellFormed.lean ====
section
/-! DEFINITION. The checks on what comes from outside the model: a raw instruction word, a ROM image
and a key value. A term of `Instr` needs no check: its operand types are the field widths of
30_encoding.md R83, so an instruction with a field out of range cannot be written. -/

namespace Sys2Proof

/-- Whether a word is one of the 34 instructions, written from the list of ILLEGAL words of
30_encoding.md R86, family by family, in plain arithmetic on the word's number, so that it stands
independent of the decoder. -/
def wordLegal (w : Word) : Bool :=
  let family := w.toNat / 4096
  let lowByte := w.toNat % 256
  let lowNibble := w.toNat % 16
  if family = 0 then w.toNat == 0x00E0 || w.toNat == 0x00EE
  else if family = 5 ∨ family = 9 then lowNibble == 0
  else if family = 8 then !([0x8, 0x9, 0xA, 0xB, 0xC, 0xD, 0xF].elem lowNibble)
  else if family = 0xE then [0x9E, 0xA1].elem lowByte
  else if family = 0xF then [0x07, 0x0A, 0x15, 0x18, 0x1E, 0x29, 0x33, 0x55, 0x65].elem lowByte
  else true

/-- A ROM image reset accepts: at most `ROM_MAX` bytes (70_reset_and_hazards.md R230, R232). -/
def romFits (rom : List Byte) : Bool := rom.length ≤ Config.romMax

/-- A key value the host may supply: a key 0 to 15, or `KEY_NONE` (10_state.md R30). -/
def keyLegal (k : Byte) : Bool := k.toNat ≤ 15 || k == Config.keyNone

end Sys2Proof
end

