-- ==== Sys2Proof/Decode.lean ====
section
/-! DEFINITION. Instruction encoding (30_encoding.md): byte order and nibbles, the total decoder,
the encoder, and the mask and match table of R84. -/

namespace Sys2Proof

/-- Why a byte sequence is no instruction. -/
inductive DecodeError where
  /-- The word matches no row of the opcode table (R86); the step then raises
  `IllegalInstruction` (60_exceptions.md R201). -/
  | illegalInstruction (w : Word)
  /-- Fewer than the two bytes every instruction has (R80); a step never meets it. -/
  | truncated
  deriving DecidableEq, Repr

/-- The instruction word from the byte at `pc` and the byte at `pc + 1`, the byte at the lower
address in bits 15:8 (R81, 20_memory.md R52). -/
def wordOfBytes (first second : Byte) : Word := first ++ second

/-- The two bytes of a word as they lie in memory, lower address first (R52). -/
def bytesOfWord (w : Word) : List Byte := [w.extractLsb' 8 8, w.extractLsb' 0 8]

/-- `n1 = w[15:12]` (R81), the opcode family. -/
def nibble1 (w : Word) : Nibble := w.extractLsb' 12 4

/-- `n2 = w[11:8]` (R81). -/
def nibble2 (w : Word) : Nibble := w.extractLsb' 8 4

/-- `n3 = w[7:4]` (R81). -/
def nibble3 (w : Word) : Nibble := w.extractLsb' 4 4

/-- `n4 = w[3:0]` (R81). -/
def nibble4 (w : Word) : Nibble := w.extractLsb' 0 4

/-- The fields of R83: `x` and `y` are nibbles read as register indices. -/
def regOf (n : Nibble) : Reg := n.toFin

/-- `nn = n3 ++ n4` (R83). -/
def immByte (n3 n4 : Nibble) : Byte := n3 ++ n4

/-- `nnn = n2 ++ n3 ++ n4` (R83). -/
def immAddr (n2 n3 n4 : Nibble) : BitVec 12 := n2 ++ n3 ++ n4

/-- Family 0: the two fixed words 00E0 and 00EE (R84, R85). -/
def decodeFixed (n2 n3 n4 : Nibble) : Option Instr :=
  match (immAddr n2 n3 n4).toNat with
  | 0x0E0 => some .cls
  | 0x0EE => some .ret
  | _ => none

/-- Family 8: `n4` selects the operation (R84, R85). -/
def decodeAlu (x y : Reg) (n4 : Nibble) : Option Instr :=
  match n4.toNat with
  | 0x0 => some (.ldReg x y)
  | 0x1 => some (.orReg x y)
  | 0x2 => some (.andReg x y)
  | 0x3 => some (.xorReg x y)
  | 0x4 => some (.addReg x y)
  | 0x5 => some (.subReg x y)
  | 0x6 => some (.shr x y)
  | 0x7 => some (.subnReg x y)
  | 0xE => some (.shl x y)
  | _ => none

/-- Family E: the low byte selects the skip on key (R84, R85). -/
def decodeKeySkip (x : Reg) (low : Byte) : Option Instr :=
  match low.toNat with
  | 0x9E => some (.skp x)
  | 0xA1 => some (.sknp x)
  | _ => none

/-- Family F: the low byte selects the instruction (R84, R85). -/
def decodeMisc (x : Reg) (low : Byte) : Option Instr :=
  match low.toNat with
  | 0x07 => some (.ldVxDt x)
  | 0x0A => some (.ldVxK x)
  | 0x15 => some (.ldDtVx x)
  | 0x18 => some (.ldStVx x)
  | 0x1E => some (.addI x)
  | 0x29 => some (.ldF x)
  | 0x33 => some (.ldB x)
  | 0x55 => some (.storeRegs x)
  | 0x65 => some (.loadRegs x)
  | _ => none

/-- The nibble tuple matched against the opcode table: dispatch on `n1`, further nibbles inside
families 0, 5, 8, 9, E and F (R84). -/
def decodeNibbles (n1 n2 n3 n4 : Nibble) : Option Instr :=
  match n1.toNat with
  | 0x0 => decodeFixed n2 n3 n4
  | 0x1 => some (.jp (immAddr n2 n3 n4))
  | 0x2 => some (.call (immAddr n2 n3 n4))
  | 0x3 => some (.seImm (regOf n2) (immByte n3 n4))
  | 0x4 => some (.sneImm (regOf n2) (immByte n3 n4))
  | 0x5 => if n4 = 0 then some (.seReg (regOf n2) (regOf n3)) else none
  | 0x6 => some (.ldImm (regOf n2) (immByte n3 n4))
  | 0x7 => some (.addImm (regOf n2) (immByte n3 n4))
  | 0x8 => decodeAlu (regOf n2) (regOf n3) n4
  | 0x9 => if n4 = 0 then some (.sneReg (regOf n2) (regOf n3)) else none
  | 0xA => some (.ldI (immAddr n2 n3 n4))
  | 0xB => some (.jpV0 (immAddr n2 n3 n4))
  | 0xC => some (.rnd (regOf n2) (immByte n3 n4))
  | 0xD => some (.drw (regOf n2) (regOf n3) n4)
  | 0xE => decodeKeySkip (regOf n2) (immByte n3 n4)
  | 0xF => decodeMisc (regOf n2) (immByte n3 n4)
  | _ => none

/-- Decode one instruction word (40_step_cycle.md R102): its instruction, or the illegal word by
name (30_encoding.md R86). -/
def decodeWord (w : Word) : Except DecodeError Instr :=
  match decodeNibbles (nibble1 w) (nibble2 w) (nibble3 w) (nibble4 w) with
  | some i => .ok i
  | none => .error (.illegalInstruction w)

/-- Decode the instruction at the head of a byte sequence, and what follows it (R80, R81). -/
def decodeBytes : List Byte → Except DecodeError (Instr × List Byte)
  | first :: second :: rest =>
    match decodeWord (wordOfBytes first second) with
    | .ok i => .ok (i, rest)
    | .error e => .error e
  | _ => .error .truncated

/-- Format `NNN` (R82): opcode nibble, 12-bit address. -/
def formatNnn (n1 : Nibble) (nnn : BitVec 12) : Word := n1 ++ nnn

/-- Format `XNN` (R82): opcode nibble, register, immediate byte. -/
def formatXnn (n1 : Nibble) (x : Reg) (nn : Byte) : Word := n1 ++ (BitVec.ofFin x : Nibble) ++ nn

/-- Format `XYN` (R82): opcode nibble, two registers, count or function nibble. -/
def formatXyn (n1 : Nibble) (x y : Reg) (n4 : Nibble) : Word :=
  n1 ++ (BitVec.ofFin x : Nibble) ++ (BitVec.ofFin y : Nibble) ++ n4

/-- The word of an instruction, from the patterns of R84 and the formats of R82; `XFF` has the layout
of `XNN` with the low byte the function. -/
def encode : Instr → Word
  | .cls => 0x00E0
  | .ret => 0x00EE
  | .jp nnn => formatNnn 0x1 nnn
  | .call nnn => formatNnn 0x2 nnn
  | .seImm x nn => formatXnn 0x3 x nn
  | .sneImm x nn => formatXnn 0x4 x nn
  | .seReg x y => formatXyn 0x5 x y 0x0
  | .ldImm x nn => formatXnn 0x6 x nn
  | .addImm x nn => formatXnn 0x7 x nn
  | .ldReg x y => formatXyn 0x8 x y 0x0
  | .orReg x y => formatXyn 0x8 x y 0x1
  | .andReg x y => formatXyn 0x8 x y 0x2
  | .xorReg x y => formatXyn 0x8 x y 0x3
  | .addReg x y => formatXyn 0x8 x y 0x4
  | .subReg x y => formatXyn 0x8 x y 0x5
  | .shr x y => formatXyn 0x8 x y 0x6
  | .subnReg x y => formatXyn 0x8 x y 0x7
  | .shl x y => formatXyn 0x8 x y 0xE
  | .sneReg x y => formatXyn 0x9 x y 0x0
  | .ldI nnn => formatNnn 0xA nnn
  | .jpV0 nnn => formatNnn 0xB nnn
  | .rnd x nn => formatXnn 0xC x nn
  | .drw x y n => formatXyn 0xD x y n
  | .skp x => formatXnn 0xE x 0x9E
  | .sknp x => formatXnn 0xE x 0xA1
  | .ldVxDt x => formatXnn 0xF x 0x07
  | .ldVxK x => formatXnn 0xF x 0x0A
  | .ldDtVx x => formatXnn 0xF x 0x15
  | .ldStVx x => formatXnn 0xF x 0x18
  | .addI x => formatXnn 0xF x 0x1E
  | .ldF x => formatXnn 0xF x 0x29
  | .ldB x => formatXnn 0xF x 0x33
  | .storeRegs x => formatXnn 0xF x 0x55
  | .loadRegs x => formatXnn 0xF x 0x65

/-- An instruction as the bytes a ROM image holds for it. -/
def encodeBytes (i : Instr) : List Byte := bytesOfWord (encode i)

/-- A row of the table of R84: a word `w` is the row's instruction when `w & mask = value`. -/
structure OpRow where
  mnemonic : String
  mask : Word
  value : Word
  deriving DecidableEq, Repr

/-- The mask and match table of R84 (spec/opcode_table.json), row for row. The decoder does not read
it; that the two agree is stated and proved. -/
def opcodeTable : List OpRow :=
  [⟨"CLS", 0xFFFF, 0x00E0⟩, ⟨"RET", 0xFFFF, 0x00EE⟩, ⟨"JP_nnn", 0xF000, 0x1000⟩,
    ⟨"CALL_nnn", 0xF000, 0x2000⟩, ⟨"SE_Vx__nn", 0xF000, 0x3000⟩, ⟨"SNE_Vx__nn", 0xF000, 0x4000⟩,
    ⟨"SE_Vx__Vy", 0xF00F, 0x5000⟩, ⟨"LD_Vx__nn", 0xF000, 0x6000⟩, ⟨"ADD_Vx__nn", 0xF000, 0x7000⟩] ++
  [⟨"LD_Vx__Vy", 0xF00F, 0x8000⟩, ⟨"OR_Vx__Vy", 0xF00F, 0x8001⟩, ⟨"AND_Vx__Vy", 0xF00F, 0x8002⟩,
    ⟨"XOR_Vx__Vy", 0xF00F, 0x8003⟩, ⟨"ADD_Vx__Vy", 0xF00F, 0x8004⟩, ⟨"SUB_Vx__Vy", 0xF00F, 0x8005⟩,
    ⟨"SHR_Vx", 0xF00F, 0x8006⟩, ⟨"SUBN_Vx__Vy", 0xF00F, 0x8007⟩, ⟨"SHL_Vx", 0xF00F, 0x800E⟩] ++
  [⟨"SNE_Vx__Vy", 0xF00F, 0x9000⟩, ⟨"LD_I__nnn", 0xF000, 0xA000⟩, ⟨"JP_V0__nnn", 0xF000, 0xB000⟩,
    ⟨"RND_Vx__nn", 0xF000, 0xC000⟩, ⟨"DRW_Vx__Vy__n", 0xF000, 0xD000⟩, ⟨"SKP_Vx", 0xF0FF, 0xE09E⟩,
    ⟨"SKNP_Vx", 0xF0FF, 0xE0A1⟩] ++
  [⟨"LD_Vx__DT", 0xF0FF, 0xF007⟩, ⟨"LD_Vx__K", 0xF0FF, 0xF00A⟩, ⟨"LD_DT__Vx", 0xF0FF, 0xF015⟩,
    ⟨"LD_ST__Vx", 0xF0FF, 0xF018⟩, ⟨"ADD_I__Vx", 0xF0FF, 0xF01E⟩, ⟨"LD_F__Vx", 0xF0FF, 0xF029⟩,
    ⟨"LD_B__Vx", 0xF0FF, 0xF033⟩, ⟨"LD__I___Vx", 0xF0FF, 0xF055⟩, ⟨"LD_Vx___I", 0xF0FF, 0xF065⟩]

/-- The bytes in memory of the instruction whose table bits are the low `nbits` bits of `w` (bit 0 the
least significant bit of the one 16-bit word). -/
def tableBytes (nbits w : Nat) : List Byte := bytesOfWord (BitVec.ofNat 16 (w % 2 ^ nbits))

/-- The instruction the decoder reads from a word of the opcode table. -/
def decodeTableWord (nbits w : Nat) : Option Instr :=
  match decodeBytes (tableBytes nbits w) with
  | .ok (i, _) => some i
  | .error _ => none

end Sys2Proof
end

