-- ==== Sys2Proof/Machine/State.lean ====
section
/-! DEFINITION. The state of CORE as plain data (10_state.md), its fault record, and the state right
after reset (R34). -/

namespace Sys2Proof.Machine

/-- Main memory `Mem` (R27): the bytes that differ from the reset contents `initByte`, by rising
address (log entry 9). -/
abbrev Memory := List Host.Cell

/-- The five faults of a running CORE (60_exceptions.md R200). A step that raises one answers a NEXT
state whose fault record holds it (R203): none of them is a `Fault` of the step. -/
inductive FaultCause where
  /-- Code 1, raised by decode when the word matches no row of the opcode table (R201). -/
  | illegalInstruction
  /-- Code 2, raised by fetch when `pc` > 0xFFE (R202). -/
  | fetchAddress
  /-- Code 3, raised by Dxyn, Fx33, Fx55, Fx65 when a data address is above 0xFFF (R204). -/
  | memoryAddress
  /-- Code 4, raised by 2nnn and 00EE when the stack index is above 15 (R205). -/
  | stack
  /-- Code 5, raised by Dxyn when a display index is above 255 (R206). -/
  | displayIndex
  deriving DecidableEq, Repr

/-- The fault record (10_state.md R32, 60_exceptions.md R207). -/
structure FaultRecord where
  /-- Which fault. -/
  cause : FaultCause
  /-- PC at the start of the faulting step. -/
  pc : Word
  /-- The fetched word; 0 where none was fetched. -/
  word : Word
  /-- The offending address or index; 0 for an illegal instruction. -/
  info : Nat
  deriving DecidableEq, Repr

/-- The state of CORE. Every field but the last two is the spec's own state; `key` is the host's
input to the next step (R30, log entry 3) and `draws` is the model's own counter (log entry 6). -/
structure State where
  /-- V0 to VF (R20); VF is `v[15]` (R21). -/
  v : Vector Byte 16
  /-- The address register I (R22). -/
  i : Word
  /-- The program counter PC (R23). -/
  pc : Word
  /-- The stack pointer SP (R24). -/
  sp : Byte
  /-- The call stack, `Stack[0]` to `Stack[15]` (R25). -/
  stack : Vector Word 16
  /-- The delay timer DT (R26). -/
  dt : Byte
  /-- The sound timer ST (R26). -/
  st : Byte
  /-- Main memory (R27). -/
  mem : Memory
  /-- The display buffer, `Disp[0]` to `Disp[255]` (R28). -/
  disp : Vector Byte 256
  /-- The fault record (R32). -/
  fault : Option FaultRecord
  /-- The key latch (R30): the value the host supplied for the next step. -/
  key : Byte
  /-- How many random bytes have been drawn (R31): which free value the next Cxnn takes. -/
  draws : Nat
  deriving DecidableEq, Repr

/-- No step of CORE answers a `Fault` of the host's interface: every fault of the spec is a state
change with a record the host can read (R203, R207), so this type has no constructor
(log entry 1). -/
inductive Fault
  deriving DecidableEq, Repr

/-- Why a step gives no meaning. -/
inductive Refusal where
  /-- Raised only by an arm of `exec` whose instruction has no meaning yet; safe. No arm does. -/
  | notModelled (mnemonic : String)
  deriving DecidableEq, Repr

/-- What a meaning answers. -/
abbrev Result := Host.Outcome State Fault Refusal

/-- Reset with an empty ROM and the default font (R34, 70_reset_and_hazards.md R230): the program is
loaded by `hostReset` (log entry 11). -/
def State.reset : State where
  v := Vector.replicate 16 0
  i := 0
  pc := 0x0200
  sp := 0
  stack := Vector.replicate 16 0
  dt := 0
  st := 0
  mem := []
  disp := Vector.replicate 256 0
  fault := none
  key := Config.keyAtReset
  draws := 0

end Sys2Proof.Machine
end

