-- ==== Sys2Proof/Machine/Flags.lean ====
section
/-! DEFINITION. What each flag-setting instruction puts in VF (10_state.md R21, 44_alu.md R159), as
functions of the operands read before any write. -/

namespace Sys2Proof.Machine

/-- A one-bit flag held in a whole register: 1 or 0. -/
def flagByte (b : Bool) : Byte := if b then 1 else 0

/-- The carry of 8xy4: 1 if `a + b > 255` on unbounded integers, else 0 (R154). -/
def carryFlag (a b : Byte) : Byte := flagByte (255 < a.toNat + b.toNat)

/-- The NOT borrow of `a - b`: 1 if `a ≥ b`, else 0 (R155, R157). -/
def notBorrowFlag (a b : Byte) : Byte := flagByte (b.toNat ≤ a.toNat)

/-- VF of 8xy6: the whole byte `a | 0x01`, not the bit shifted out (R156). -/
def shrFlag (a : Byte) : Byte := a ||| 0x01

/-- VF of 8xyE: the whole byte `a | 0x08`, not the bit shifted out (R158). -/
def shlFlag (a : Byte) : Byte := a ||| 0x08

/-- Whether XORing sprite byte `s` onto display byte `old` turns a lit pixel dark (R66, R171). -/
def pixelCleared (old s : Byte) : Bool := old &&& s != 0

end Sys2Proof.Machine
end

