-- ==== Sys2Proof/Machine/Font.lean ====
section
/-! DEFINITION. The default font and the reset contents of main memory (10_state.md R27, R29). -/

namespace Sys2Proof.Machine

/-- The default of parameter `FONT` (10_state.md R29, 93_implementation_defined.md G1), four glyphs a line.
PRESUMED (log entry 8): the spec offers this table from general knowledge; `hostReset` takes any
other font as its argument. -/
def fontBytes : List Byte :=
  [0xF0, 0x90, 0x90, 0x90, 0xF0, 0x20, 0x60, 0x20, 0x20, 0x70,
    0xF0, 0x10, 0xF0, 0x80, 0xF0, 0xF0, 0x10, 0xF0, 0x10, 0xF0] ++
  [0x90, 0x90, 0xF0, 0x10, 0x10, 0xF0, 0x80, 0xF0, 0x10, 0xF0,
    0xF0, 0x80, 0xF0, 0x90, 0xF0, 0xF0, 0x10, 0x20, 0x40, 0x40] ++
  [0xF0, 0x90, 0xF0, 0x90, 0xF0, 0xF0, 0x90, 0xF0, 0x10, 0xF0,
    0xF0, 0x90, 0xF0, 0x90, 0x90, 0xE0, 0x90, 0xE0, 0x90, 0xE0] ++
  [0xF0, 0x80, 0x80, 0x80, 0xF0, 0xE0, 0x90, 0x90, 0x90, 0xE0,
    0xF0, 0x80, 0xF0, 0x80, 0xF0, 0xF0, 0x80, 0xF0, 0x80, 0x80]

/-- The default `FONT` as the 80-byte argument of reset (00_scope.md R7, 10_state.md R35). -/
def defaultFont : Vector Byte 80 := ⟨fontBytes.toArray, by decide⟩

/-- What an address of main memory that the memory list does not name reads as: the reset contents
of R27 with no ROM: the default font in [0, 80) and 0 elsewhere (log entry 9). -/
def initByte (a : Nat) : Byte := fontBytes.getD a 0

end Sys2Proof.Machine
end

