-- ==== Sys2Proof/Machine/Operands.lean ====
section
/-! DEFINITION. The operand forms: extended immediates, register ranges, effective addresses,
display indices and the bytes Fx33 stores. -/

namespace Sys2Proof.Machine

/-- `zext_16(nnn)`: a 12-bit address as a 16-bit value (30_encoding.md R83). -/
def zext16 (nnn : BitVec 12) : Word := nnn.setWidth 16

/-- `zext_16(V[x])`: a register as a 16-bit value (47_index_memory.md R190). -/
def zextReg (b : Byte) : Word := b.setWidth 16

/-- The V file in order. -/
def allRegs : List Reg := [0, 1, 2, 3, 4, 5, 6, 7, 8, 9, 10, 11, 12, 13, 14, 15]

/-- The register range V0 to Vx of Fx55 and Fx65 (47_index_memory.md R193, R194). -/
def regsUpTo (x : Reg) : List Reg := allRegs.take (x.val + 1)

/-- Effective address `I + k`, on unbounded integers (20_memory.md R56). -/
def effAddr (base : Word) (k : Nat) : Nat := base.toNat + k

/-- The lowest effective address above 0xFFF among the offsets, which are listed in rising order
(R56); none if every one of them exists. -/
def firstBadAddr (base : Word) : List Nat → Option Nat
  | [] => none
  | k :: ks => if 0xFFF < effAddr base k then some (effAddr base k) else firstBadAddr base ks

/-- The byte column of Dxyn, `V[x] div 8`; `V[x] mod 8` is discarded (45_display.md R171 (a)). -/
def spriteColumn (vx : Byte) : Nat := vx.toNat / 8

/-- The display index of row `r` of Dxyn, on unbounded integers: neither wrapped nor clipped
(20_memory.md R58, 45_display.md R171 (b), (c)). -/
def displayIndex (vx vy : Byte) (r : Nat) : Nat :=
  spriteColumn vx + (vy.toNat + r) * Config.dispStride

/-- The address of glyph `b`, `b * 5` in 16 bits (47_index_memory.md R191). -/
def glyphAddress (b : Byte) : Word := BitVec.ofNat 16 (b.toNat * Config.glyphLen)

/-- Hundreds, tens and units of a byte, each in a byte of its own (47_index_memory.md R192). -/
def decimalDigits (b : Byte) : List Byte :=
  [BitVec.ofNat 8 (b.toNat / 100), BitVec.ofNat 8 (b.toNat / 10 % 10), BitVec.ofNat 8 (b.toNat % 10)]

/-- A timer counts down by one and stops at 0 (10_state.md R26, 40_step_cycle.md R106). -/
def countDown (t : Byte) : Byte := if t = 0 then 0 else t - 1

end Sys2Proof.Machine
end

