-- ==== Sys2Proof/Machine/Ops.lean ====
section
/-! DEFINITION. The named operations over memory and state: the access primitives of 00_scope.md R9,
the program counter updates of 40_step_cycle.md R104 and R105, the timer phase of R106 and the one
operation that raises a fault (60_exceptions.md R203). -/

namespace Sys2Proof.Machine

/-! ### Main memory -/

/-- The byte at an address: its entry, or the reset contents where the list names none (R27). -/
def Memory.read : Memory → Nat → Byte
  | [], a => initByte a
  | (b, u) :: m, a => if a = b then u else Memory.read m a

/-- Store a byte, keeping the addresses rising and no entry equal to the reset contents. -/
def Memory.write : Memory → Nat → Byte → Memory
  | [], a, u => if u = initByte a then [] else [(a, u)]
  | (b, w) :: m, a, u =>
    if a < b then
      if u = initByte a then (b, w) :: m else (a, u) :: (b, w) :: m
    else if a = b then
      if u = initByte a then m else (a, u) :: m
    else (b, w) :: Memory.write m a u

/-- Store bytes at ascending addresses from `a` (20_memory.md R60). -/
def Memory.writeBytes : Memory → Nat → List Byte → Memory
  | m, _, [] => m
  | m, a, u :: us => Memory.writeBytes (Memory.write m a u) (a + 1) us

/-- The canonical form above a lower bound: addresses rise, exist, and hold something other than
their reset contents. -/
def Memory.wfFrom : Nat → Memory → Bool
  | _, [] => true
  | lo, (a, u) :: m =>
    decide (lo ≤ a) && decide (a < Config.memSize) && (u != initByte a) &&
      Memory.wfFrom (a + 1) m

/-- The canonical form of main memory, in which equal memories are equal lists. -/
def Memory.wf (m : Memory) : Bool := Memory.wfFrom 0 m

/-- `MemRead(a, 1)` (R9): a rule checks the range of `a` first. -/
def State.readMem (s : State) (a : Nat) : Byte := s.mem.read a

/-- `MemWrite` of consecutive bytes from `a` (R9): a rule checks the range first. -/
def State.writeMem (s : State) (a : Nat) (us : List Byte) : State :=
  { s with mem := s.mem.writeBytes a us }

/-! ### Registers -/

/-- `V[x]` (R9). No register is hard-wired (R20). -/
def State.readV (s : State) (x : Reg) : Byte := s.v[x]

/-- `V[x] <- b` (R9). -/
def State.writeV (s : State) (x : Reg) (b : Byte) : State := { s with v := s.v.set x b }

/-- The index of VF (R9, R21). -/
def vf : Reg := 15

/-- `I <- w` (R9). -/
def State.setI (s : State) (w : Word) : State := { s with i := w }

/-- `pc <- w` (R9). -/
def State.setPc (s : State) (w : Word) : State := { s with pc := w }

/-- `SP <- b` (R9). -/
def State.setSp (s : State) (b : Byte) : State := { s with sp := b }

/-- `DT <- b` (R9). -/
def State.setDt (s : State) (b : Byte) : State := { s with dt := b }

/-- `ST <- b` (R9). -/
def State.setSt (s : State) (b : Byte) : State := { s with st := b }

/-- `Stack[k]` (R9), `none` above slot 15. -/
def State.readStack (s : State) (k : Nat) : Option Word := s.stack[k]?

/-- `Stack[k] <- w` (R9): a rule checks that `k` is at most 15 first. -/
def State.writeStack (s : State) (k : Nat) (w : Word) : State :=
  { s with stack := s.stack.setIfInBounds k w }

/-- Take the next random byte (R31): advance the count of draws. -/
def State.countDraw (s : State) : State := { s with draws := s.draws + 1 }

/-- `rand` (R9): the random byte the next Cxnn takes. -/
def State.rand (s : State) : Byte := Config.randomByte s.draws

/-! ### Display buffer -/

/-- `Disp[k]` (R9): a rule checks that `k` is at most 255 first, so the 0 above it is never read. -/
def State.readDisp (s : State) (k : Nat) : Byte := s.disp[k]?.getD 0

/-- `Disp[k] <- b` (R9): a rule checks that `k` is at most 255 first. -/
def State.writeDisp (s : State) (k : Nat) (b : Byte) : State :=
  { s with disp := s.disp.setIfInBounds k b }

/-- Every byte of the display buffer to 0 (45_display.md R170). -/
def State.clearDisp (s : State) : State := { s with disp := Vector.replicate 256 0 }

/-! ### Program counter, timers, faults -/

/-- Baseline advance, `pc <- (pc + 2) mod 65536` (40_step_cycle.md R104). -/
def State.advance (s : State) : State := s.setPc (s.pc + 2)

/-- A skip: `pc + 4` when its condition holds, `pc + 2` when it does not (R105). The skipped word is
not looked at. -/
def State.skipIf (s : State) (cond : Bool) : State := s.setPc (if cond then s.pc + 4 else s.pc + 2)

/-- The timer phase (R106): DT and ST count down, floor at 0. -/
def State.tick (s : State) : State := (s.setDt (countDown s.dt)).setSt (countDown s.st)

/-- `raise` (R9): the state as it was when the step began, with only the fault record set; `pc` still
addresses the faulting instruction (60_exceptions.md R203, R207). -/
def State.raise (s : State) (cause : FaultCause) (w : Word) (info : Nat) : State :=
  { s with fault := some { cause := cause, pc := s.pc, word := w, info := info } }

/-- The codes of 60_exceptions.md R200. -/
def FaultCause.code : FaultCause → Nat
  | .illegalInstruction => 1
  | .fetchAddress => 2
  | .memoryAddress => 3
  | .stack => 4
  | .displayIndex => 5

/-- A data access of instruction `i` at the offsets `ks` from I: `MemoryAddressFault` for the lowest
address above 0xFFF, nothing accessed, or the state `t` the rule gives (20_memory.md R56,
60_exceptions.md R204). -/
def withDataAccess (i : Instr) (ks : List Nat) (s t : State) : Result :=
  match firstBadAddr s.i ks with
  | some ea => .next (s.raise .memoryAddress (encode i) ea)
  | none => .next t

/-- The end of a step: the timer phase, in a step that raised no fault (R106, R107). -/
def finishStep : Result → Result
  | .next t => .next (if t.fault = none then t.tick else t)
  | .fault f => .fault f
  | .refused r => .refused r

end Sys2Proof.Machine
end

