-- ==== Sys2Proof/Machine/Alu.lean ====
section
/-! DEFINITION. Register-to-register ALU: 8xy0 to 8xy7 and 8xyE (44_alu.md). The order of the writes
where VF is also an operand is R160. -/

namespace Sys2Proof.Machine

/-- 8xy0 LD (R150): on this hardware an add, without flag. -/
def execLdReg (x y : Reg) (s : State) : Result :=
  .next (s.writeV x (s.readV x + s.readV y)).advance

/-- 8xy1 OR (R151). -/
def execOrReg (x y : Reg) (s : State) : Result :=
  .next (s.writeV x (s.readV x ||| s.readV y)).advance

/-- 8xy2 AND (R152). -/
def execAndReg (x y : Reg) (s : State) : Result :=
  .next (s.writeV x (s.readV x &&& s.readV y)).advance

/-- 8xy3 XOR (R153). -/
def execXorReg (x y : Reg) (s : State) : Result :=
  .next (s.writeV x (s.readV x ^^^ s.readV y)).advance

/-- 8xy4 ADD (R154): the flag is written last. -/
def execAddReg (x y : Reg) (s : State) : Result :=
  .next ((s.writeV x (s.readV x + s.readV y)).writeV vf
    (carryFlag (s.readV x) (s.readV y))).advance

/-- 8xy5 SUB (R155): the flag is written last. -/
def execSubReg (x y : Reg) (s : State) : Result :=
  .next ((s.writeV x (s.readV x - s.readV y)).writeV vf
    (notBorrowFlag (s.readV x) (s.readV y))).advance

/-- 8xy6 SHR (R156): VF first, then `V[x]` is read again and shifted; `y` is ignored (R88). -/
def execShr (x _y : Reg) (s : State) : Result :=
  let s₁ := s.writeV vf (shrFlag (s.readV x))
  .next (s₁.writeV x (s₁.readV x >>> 1)).advance

/-- 8xy7 SUBN (R157): the flag is written last. -/
def execSubnReg (x y : Reg) (s : State) : Result :=
  .next ((s.writeV x (s.readV y - s.readV x)).writeV vf
    (notBorrowFlag (s.readV y) (s.readV x))).advance

/-- 8xyE SHL (R158): VF first, then `V[x]` is read again and shifted; `y` is ignored (R88). -/
def execShl (x _y : Reg) (s : State) : Result :=
  let s₁ := s.writeV vf (shlFlag (s.readV x))
  .next (s₁.writeV x (s₁.readV x <<< 1)).advance

end Sys2Proof.Machine
end

