-- ==== Sys2Proof/Machine/Control.lean ====
section
/-! DEFINITION. Control transfer: 00EE, 1nnn, 2nnn, Bnnn (41_control_flow.md). -/

namespace Sys2Proof.Machine

/-- 00EE RET (R120): the slot holds the call site, the return adds the 2. -/
def execRet (s : State) : Result :=
  match s.readStack s.sp.toNat with
  | some t => .next ((s.setSp (s.sp - 1)).setPc (t + 2))
  | none => .next (s.raise .stack (encode .ret) s.sp.toNat)

/-- 1nnn JP (R121). -/
def execJp (nnn : BitVec 12) (s : State) : Result := .next (s.setPc (zext16 nnn))

/-- 2nnn CALL (R122): the incremented pointer is checked first, and the slot receives the address of
this instruction. -/
def execCall (nnn : BitVec 12) (s : State) : Result :=
  let top := s.sp + 1
  if 15 < top.toNat then .next (s.raise .stack (encode (.call nnn)) top.toNat)
  else .next (((s.setSp top).writeStack top.toNat s.pc).setPc (zext16 nnn))

/-- Bnnn JP V0 (R123): the sum is not reduced to 12 bits. -/
def execJpV0 (nnn : BitVec 12) (s : State) : Result :=
  .next (s.setPc (zextReg (s.readV 0) + zext16 nnn))

end Sys2Proof.Machine
end

