-- ==== Sys2Proof/Machine/Display.lean ====
section
/-! DEFINITION. Display: 00E0, Dxyn and the XOR composer (45_display.md). -/

namespace Sys2Proof.Machine

/-- 00E0 CLS (R170). -/
def execCls (s : State) : Result := .next s.clearDisp.advance

/-- Phase A of Dxyn (R171, 60_exceptions.md R208): the first failing check over the rows in rising
order, the memory address of a row before its display index. -/
def drawCheck (base : Word) (vx vy : Byte) : List Nat → Option (FaultCause × Nat)
  | [] => none
  | r :: rs =>
    if 0xFFF < effAddr base r then some (.memoryAddress, effAddr base r)
    else if 255 < displayIndex vx vy r then some (.displayIndex, displayIndex vx vy r)
    else drawCheck base vx vy rs

/-- Phase B of Dxyn (R171): XOR each row's sprite byte onto its display byte. -/
def drawRows (base : Word) (vx vy : Byte) : State → List Nat → State
  | s, [] => s
  | s, r :: rs =>
    let k := displayIndex vx vy r
    drawRows base vx vy (s.writeDisp k (s.readDisp k ^^^ s.readMem (effAddr base r))) rs

/-- The collision of Dxyn (R171): some row clears a lit pixel. The rows of one draw never overlap
(R171 (d)), so each row meets the display byte as it was before the draw. -/
def drawHit (s : State) (base : Word) (vx vy : Byte) (rs : List Nat) : Bool :=
  rs.any fun r => pixelCleared (s.readDisp (displayIndex vx vy r)) (s.readMem (effAddr base r))

/-- Dxyn DRW (R171): coordinates and I read first, all checks before any row, VF written last. -/
def execDrw (x y : Reg) (n : Nibble) (s : State) : Result :=
  let vx := s.readV x
  let vy := s.readV y
  let rows := List.range n.toNat
  match drawCheck s.i vx vy rows with
  | some (cause, info) => .next (s.raise cause (encode (.drw x y n)) info)
  | none =>
    .next ((drawRows s.i vx vy s rows).writeV vf (flagByte (drawHit s s.i vx vy rows))).advance

end Sys2Proof.Machine
end

