-- ==== Sys2Proof/Machine/Immediate.lean ====
section
/-! DEFINITION. Immediates and random: 6xnn, 7xnn, Annn, Cxnn (43_immediate_random.md). -/

namespace Sys2Proof.Machine

/-- 6xnn LD (R140). -/
def execLdImm (x : Reg) (nn : Byte) (s : State) : Result := .next (s.writeV x nn).advance

/-- 7xnn ADD (R141): the carry is discarded. -/
def execAddImm (x : Reg) (nn : Byte) (s : State) : Result :=
  .next (s.writeV x (s.readV x + nn)).advance

/-- Annn LD I (R142). -/
def execLdI (nnn : BitVec 12) (s : State) : Result := .next (s.setI (zext16 nnn)).advance

/-- Cxnn RND (R143): a fresh free value, masked by the immediate. -/
def execRnd (x : Reg) (nn : Byte) (s : State) : Result :=
  .next (s.countDraw.writeV x (s.rand &&& nn)).advance

end Sys2Proof.Machine
end

