-- ==== Sys2Proof/Machine/IndexMemory.lean ====
section
/-! DEFINITION. Address register and memory transfer: Fx1E, Fx29, Fx33, Fx55, Fx65
(47_index_memory.md). None of the memory transfers changes I. -/

namespace Sys2Proof.Machine

/-- Fx1E ADD I, Vx (R190): modulo 65536, VF untouched, no range check. -/
def execAddI (x : Reg) (s : State) : Result := .next (s.setI (s.i + zextReg (s.readV x))).advance

/-- Fx29 LD F, Vx (R191): the whole byte is multiplied. -/
def execLdF (x : Reg) (s : State) : Result := .next (s.setI (glyphAddress (s.readV x))).advance

/-- Fx33 LD B, Vx (R192). -/
def execLdB (x : Reg) (s : State) : Result :=
  withDataAccess (.ldB x) (List.range 3) s
    (s.writeMem s.i.toNat (decimalDigits (s.readV x))).advance

/-- Fx55 LD [I], Vx (R193): V0 to Vx, V0 at the lowest address. -/
def execStoreRegs (x : Reg) (s : State) : Result :=
  withDataAccess (.storeRegs x) (List.range (x.val + 1)) s
    (s.writeMem s.i.toNat ((regsUpTo x).map s.readV)).advance

/-- Load each listed register from its own offset from `base` (R194). -/
def loadFrom (base : Word) : State → List Reg → State
  | s, [] => s
  | s, k :: ks => loadFrom base (s.writeV k (s.readMem (effAddr base k.val))) ks

/-- Fx65 LD Vx, [I] (R194). -/
def execLoadRegs (x : Reg) (s : State) : Result :=
  withDataAccess (.loadRegs x) (List.range (x.val + 1)) s
    (loadFrom s.i s (regsUpTo x)).advance

end Sys2Proof.Machine
end

