-- ==== Sys2Proof/Machine/Skips.lean ====
section
/-! DEFINITION. Conditional skips: 3xnn, 4xnn, 5xy0, 9xy0, Ex9E, ExA1 (42_skips.md). -/

namespace Sys2Proof.Machine

/-- 3xnn SE (R130). -/
def execSeImm (x : Reg) (nn : Byte) (s : State) : Result := .next (s.skipIf (s.readV x == nn))

/-- 4xnn SNE (R131). -/
def execSneImm (x : Reg) (nn : Byte) (s : State) : Result := .next (s.skipIf (s.readV x != nn))

/-- 5xy0 SE (R132). -/
def execSeReg (x y : Reg) (s : State) : Result := .next (s.skipIf (s.readV x == s.readV y))

/-- 9xy0 SNE (R133). -/
def execSneReg (x y : Reg) (s : State) : Result := .next (s.skipIf (s.readV x != s.readV y))

/-- Ex9E SKP (R134): the whole latch with the whole register. -/
def execSkp (x : Reg) (s : State) : Result := .next (s.skipIf (s.key == s.readV x))

/-- ExA1 SKNP (R135): the whole latch with the whole register. -/
def execSknp (x : Reg) (s : State) : Result := .next (s.skipIf (s.key != s.readV x))

end Sys2Proof.Machine
end

