-- ==== Sys2Proof/Machine/TimersKeys.lean ====
section
/-! DEFINITION. Timers and key latch: Fx07, Fx0A, Fx15, Fx18 (46_timers_keys.md). The timer phase
that follows in the same step is `finishStep`. -/

namespace Sys2Proof.Machine

/-- Fx07 LD Vx, DT (R180). -/
def execLdVxDt (x : Reg) (s : State) : Result := .next (s.writeV x s.dt).advance

/-- Fx0A LD Vx, K (R181): the latch as it stands, without waiting. -/
def execLdVxK (x : Reg) (s : State) : Result := .next (s.writeV x s.key).advance

/-- Fx15 LD DT, Vx (R182). -/
def execLdDtVx (x : Reg) (s : State) : Result := .next (s.setDt (s.readV x)).advance

/-- Fx18 LD ST, Vx (R183). -/
def execLdStVx (x : Reg) (s : State) : Result := .next (s.setSt (s.readV x)).advance

end Sys2Proof.Machine
end

