-- ==== Sys2Proof/Machine/Fetch.lean ====
section
/-! DEFINITION. The fetch and decode phases of a step (40_step_cycle.md R101, R102, R107), and the
placing of an instruction where the next step fetches it. -/

namespace Sys2Proof.Machine

/-- The last address an instruction can be fetched from (20_memory.md R57). -/
def lastFetch : Nat := 0xFFE

/-- The word at `pc` and `pc + 1`, the sum on unbounded integers (R57, R101). -/
def State.fetchWord (s : State) : Word :=
  wordOfBytes (s.readMem s.pc.toNat) (s.readMem (s.pc.toNat + 1))

/-- What fetch and decode come to. -/
inductive Fetched where
  /-- The machine has faulted and takes no step (R107). -/
  | idle
  /-- Fetch or decode raised a fault, giving this state. -/
  | trap (t : State)
  /-- The instruction to execute. -/
  | run (i : Instr)
  deriving DecidableEq, Repr

/-- Fetch, then decode; fetch faults come before decode faults (60_exceptions.md R208). -/
def State.fetchDecode (s : State) : Fetched :=
  if s.fault ≠ none then .idle
  else if lastFetch < s.pc.toNat then .trap (s.raise .fetchAddress 0 s.pc.toNat)
  else
    match decodeWord s.fetchWord with
    | .ok i => .run i
    | .error _ => .trap (s.raise .illegalInstruction s.fetchWord 0)

/-- `s` made able to fetch (no fault recorded, `pc` at a fetchable address), with the bytes stored at
`pc`. Right after reset both already hold, so only the bytes are placed. -/
def State.placeAtPc (s : State) (us : List Byte) : State :=
  let ready := if lastFetch < s.pc.toNat then s.setPc (BitVec.ofNat 16 Config.progBase) else s
  { ready with fault := none }.writeMem ready.pc.toNat us

end Sys2Proof.Machine
end

