-- ==== Sys2Proof/Machine/HostSide.lean ====
section
/-! DEFINITION. What the host may do (70_reset_and_hazards.md R240): reset with a ROM and a font,
supply the key value, read the outputs; and the renderer's view of a pixel (20_memory.md R66). -/

namespace Sys2Proof.Machine

/-- The one error of the reset interface (60_exceptions.md R219). -/
inductive ResetError where
  /-- The ROM image is longer than `ROM_MAX`; no state exists afterwards (R232). -/
  | malformedRom
  deriving DecidableEq, Repr

/-- Reset, the only way a state is created (R230, R231): the font at 0, the ROM from 0x200, every
other byte and every register 0, or `MalformedRom` and no state (R232). -/
def hostReset (rom : List Byte) (font : Vector Byte 80) : Except ResetError State :=
  if romFits rom then
    .ok ((State.reset.writeMem 0 font.toList).writeMem Config.progBase rom)
  else .error .malformedRom

/-- The host supplies the key value of the next step (10_state.md R30, 20_memory.md R64): its only
write to a running CORE. -/
def State.setKey (s : State) (k : Byte) : State := { s with key := k }

/-- What the host may read between steps (10_state.md R35). -/
structure Outputs where
  disp : Vector Byte 256
  dt : Byte
  st : Byte
  fault : Option FaultRecord
  deriving DecidableEq, Repr

/-- The outputs of a state (R35). -/
def State.outputs (s : State) : Outputs :=
  { disp := s.disp, dt := s.dt, st := s.st, fault := s.fault }

/-- The bit of a display byte that is pixel column `c`; which of the two orders holds is the open
parameter `PIXEL_MSB_LEFT` (R66). -/
def pixelBit (c : Nat) : Nat := if Config.pixelMsbLeft then 7 - c % 8 else c % 8

/-- Whether pixel (column `c`, row `r`) is lit: its bit of `Disp[c div 8 + 8 * r]` is 1 (R66). -/
def State.pixelLit (s : State) (c r : Nat) : Bool :=
  (s.readDisp (c / 8 + Config.dispStride * r)).getLsbD (pixelBit c)

end Sys2Proof.Machine
end

