-- ==== Sys2Proof/Machine/Step.lean ====
section
/-! DEFINITION. One step of CORE (40_step_cycle.md R100): fetch, decode, execute, advance, timers. -/

namespace Sys2Proof.Machine

/-- One step. The key value is the one in the state, the random byte the next free value. -/
def step (s : State) : Host.Outcome State Fault Refusal :=
  match s.fetchDecode with
  | .idle => .next s
  | .trap t => .next t
  | .run i => finishStep (exec i s)

/-- The step event of the interface (10_state.md R35): the host supplies `key`, then CORE steps. -/
def hostStep (key : Byte) (s : State) : Host.Outcome State Fault Refusal := step (s.setKey key)

/-- `s` with the instruction of the table word `w` placed where `step` fetches next. It stands for
loading a program at reset (log entry 11). -/
def State.withFetchWord (s : State) (nbits w : Nat) : State := s.placeAtPc (tableBytes nbits w)

end Sys2Proof.Machine
end

