-- ==== Sys2Proof/Safety.lean ====
section
/-! DEFINITION. What counts as a safe run, and the terms the statements use. -/

namespace Sys2Proof.Machine

/-- CORE has not faulted; a faulted state is never a final state of a successful run
(60_exceptions.md R203). -/
def State.safe (s : State) : Bool := s.fault.isNone

/-- At rest (70_reset_and_hazards.md R244): not faulted, and `pc` holds a jump to itself. -/
def State.atRest (s : State) : Prop :=
  ∃ nnn : BitVec 12, s.fetchDecode = .run (.jp nnn) ∧ s.pc = zext16 nnn

/-- The instruction a step will run, where fetch and decode raise nothing. -/
def State.runs (s : State) (i : Instr) : Prop :=
  s.fault = none ∧ s.pc.toNat ≤ lastFetch ∧ decodeWord s.fetchWord = .ok i

/-- Every V register but those listed reads as before. -/
def State.sameRegsBut (s t : State) (ks : List Reg) : Prop := ∀ k, k ∉ ks → t.readV k = s.readV k

/-- Every byte of main memory reads as before. -/
def State.sameMem (s t : State) : Prop := ∀ a, t.readMem a = s.readMem a

/-- `pc` advanced by two bytes, modulo 65536 (40_step_cycle.md R104). -/
def State.advanced (s t : State) : Prop := t.pc.toNat = (s.pc.toNat + 2) % 65536

/-- Nothing but V registers and PC differs: I, SP, the stack, the timers, memory (byte by byte too),
the display, the fault record, the key latch and the draw count are as before. -/
def State.onlyRegsAndPc (s t : State) : Prop :=
  t = { s with v := t.v, pc := t.pc } ∧ s.sameMem t

/-- Nothing but I and PC differs. -/
def State.onlyIAndPc (s t : State) : Prop := t = { s with i := t.i, pc := t.pc } ∧ s.sameMem t

/-- Nothing but PC differs. -/
def State.onlyPc (s t : State) : Prop := t = { s with pc := t.pc } ∧ s.sameMem t

/-- Nothing but main memory and PC differs. -/
def State.onlyMemAndPc (s t : State) : Prop := t = { s with mem := t.mem, pc := t.pc }

/-- Nothing but SP, the stack and PC differs. -/
def State.onlyStackAndPc (s t : State) : Prop :=
  t = { s with sp := t.sp, stack := t.stack, pc := t.pc } ∧ s.sameMem t

/-- The state in which the step of word `w` raised a fault: the record, and nothing else, is set
(60_exceptions.md R203, R207). -/
def State.faulted (s : State) (cause : FaultCause) (w : Word) (info : Nat) : State :=
  { s with fault := some { cause := cause, pc := s.pc, word := w, info := info } }

/-- The invariant every step and every move of the host keeps. -/
structure State.Inv (s : State) : Prop where
  /-- Main memory is in canonical form. -/
  mem_wf : s.mem.wf = true
  /-- SP is 0 to 15 or 0xFF (10_state.md R36). -/
  sp_reachable : s.sp.toNat ≤ 15 ∨ s.sp = 0xFF
  /-- Every stack slot holds a fetchable address (41_control_flow.md R120 (b)). -/
  slots_fetchable : ∀ k : Fin 16, s.stack[k].toNat ≤ lastFetch
  /-- PC is at most the largest target of Bnnn, so no PC arithmetic wraps (R123, D5). -/
  pc_bounded : s.pc.toNat ≤ 0x10FE
  /-- A recorded fault names the instruction PC still addresses (60_exceptions.md R203). -/
  fault_pc : ∀ r, s.fault = some r → r.pc = s.pc

end Sys2Proof.Machine

namespace Sys2Proof

/-- The V registers an instruction may write: the rows "write" of 10_state.md R20. -/
def Instr.writesReg (i : Instr) (k : Reg) : Bool :=
  match i with
  | .cls | .ret | .jp _ | .call _ | .ldI _ | .jpV0 _ => false
  | .seImm _ _ | .sneImm _ _ | .seReg _ _ | .sneReg _ _ | .skp _ | .sknp _ => false
  | .ldDtVx _ | .ldStVx _ | .addI _ | .ldF _ | .ldB _ | .storeRegs _ => false
  | .ldImm x _ | .addImm x _ | .rnd x _ | .ldVxDt x | .ldVxK x => k = x
  | .ldReg x _ | .orReg x _ | .andReg x _ | .xorReg x _ => k = x
  | .addReg x _ | .subReg x _ | .subnReg x _ | .shr x _ | .shl x _ => k = x || k = Machine.vf
  | .drw _ _ _ => k = Machine.vf
  | .loadRegs x => k ≤ x

/-- Whether an instruction stores to main memory (20_memory.md R55). -/
def Instr.writesMem : Instr → Bool
  | .ldB _ | .storeRegs _ => true
  | _ => false

/-- Whether an instruction writes the display buffer (20_memory.md R55). -/
def Instr.writesDisp : Instr → Bool
  | .cls | .drw _ _ _ => true
  | _ => false

/-- Whether an instruction reads the key latch (10_state.md R30). -/
def Instr.readsKey : Instr → Bool
  | .skp _ | .sknp _ | .ldVxK _ => true
  | _ => false

end Sys2Proof

namespace Sys2Proof.Machine

/-- Execute a list of instructions one after another, ending at the first fault or refusal. -/
def execAll : List Instr → State → Result
  | [], s => .next s
  | i :: is, s =>
    match exec i s with
    | .next t => execAll is t
    | .fault f => .fault f
    | .refused r => .refused r

end Sys2Proof.Machine
end

