-- ==== Sys2Proof/Certificates/Slice0/Obligations.lean ====
section
/-! DEFINITION. The statements for the provers, taken from the rules of spec/. A statement that rests
on a decision of the spec's own (92_eei_decisions.md) or on a choice of the model names it. -/

open Sys2Proof Sys2Proof.Machine

/-! ### Reset and the host (10_state.md R34; 70_reset_and_hazards.md R230 to R232) -/

/-- 10_state.md R34: what reset leaves in every piece of state, for every ROM that fits and every
font; with a longer ROM it produces no machine. -/
def Obligations.ResetLeavesTheTabledValues : Prop :=
  ∀ (rom : List Byte) (font : Vector Byte 80),
    (rom.length ≤ 3584 → ∃ s, hostReset rom font = .ok s ∧
      (∀ x, s.readV x = 0) ∧ s.i = 0 ∧ s.pc = 0x0200 ∧ s.sp = 0 ∧
      (∀ k < 16, s.readStack k = some 0) ∧ s.dt = 0 ∧ s.st = 0 ∧
      (∀ a (h : a < 80), s.readMem a = font[a]) ∧
      (∀ a, 80 ≤ a → a ≤ 0x1FF → s.readMem a = 0) ∧
      (∀ j (h : j < rom.length), s.readMem (0x200 + j) = rom[j]) ∧
      (∀ a, 0x200 + rom.length ≤ a → a ≤ 0xFFF → s.readMem a = 0) ∧
      (∀ k < 256, s.readDisp k = 0) ∧ s.fault = none) ∧
    (3584 < rom.length → hostReset rom font = .error .malformedRom)

/-- The model's choice (log entries 8 and 11): `State.reset` is the reset with the empty ROM and the
default font. -/
def Obligations.ModelResetIsTheEmptyRomReset : Prop := hostReset [] defaultFont = .ok State.reset

/-- 70_reset_and_hazards.md section 1, derived there: with the empty ROM, whatever the font, the first
step meets the word 0x0000 and faults (record by decision D15), and nothing else changes, the timers
included (60_exceptions.md section 2; decisions D14, D21, log entries 1 and 18). -/
def Obligations.EmptyRomFaultsAtTheFirstStep : Prop :=
  ∀ (font : Vector Byte 80) (s : State), hostReset [] font = .ok s →
    step s = .next (s.faulted .illegalInstruction 0x0000 0)

/-! ### Encoding (30_encoding.md) -/

/-- Decoding the word, or the bytes, of any instruction gives that instruction, every operand at every
value its field admits. -/
def Obligations.DecodeOfEncodeIsTheInstruction : Prop :=
  ∀ (i : Instr) (rest : List Byte),
    decodeWord (encode i) = .ok i ∧ decodeBytes (encodeBytes i ++ rest) = .ok (i, rest)

/-- Each legal word has one meaning and no bit of it is dropped, the ignored nibble of 8xy6 and 8xyE
among them. -/
def Obligations.EncodeOfDecodeIsTheWord : Prop :=
  ∀ (w : Word) (i : Instr), decodeWord w = .ok i → encode i = w

/-- 30_encoding.md R84: 34 rows, no two overlap, a word is the instruction of the row that matches it
(with exactly that word's fields), and a word that matches no row is unrecognized. -/
def Obligations.DecodeMatchesTheOpcodeTable : Prop :=
  opcodeTable.length = 34 ∧
  opcodeTable.Pairwise (fun r q => ∀ w : Word, ¬(w &&& r.mask = r.value ∧ w &&& q.mask = q.value)) ∧
  (∀ (w : Word), ∀ row ∈ opcodeTable, w &&& row.mask = row.value →
    ∃ i, decodeWord w = .ok i ∧ i.mnemonic = row.mnemonic ∧ encode i = w) ∧
  (∀ w : Word, (∀ row ∈ opcodeTable, w &&& row.mask ≠ row.value) →
    decodeWord w = .error (.illegalInstruction w))

/-- 30_encoding.md section 5: the words decode refuses are exactly the illegal words listed there,
family by family (5xyN and 9xyN with N not 0 by decision D30). -/
def Obligations.RefusedWordsAreTheListedIllegalWords : Prop :=
  ∀ w : Word, decodeWord w = .error (.illegalInstruction w) ↔ wordLegal w = false

/-- Words written out from the patterns of 30_encoding.md section 4, at least one for each of the
sixteen families (first nibbles) of the table, decode to the instructions they stand for, and 0x5123
is refused (decision D30). -/
def Obligations.WordsWrittenFromThePatternsDecode : Prop :=
  decodeWord 0x00E0 = .ok .cls ∧ decodeWord 0x00EE = .ok .ret ∧
  decodeWord 0x1ABC = .ok (.jp 0xABC) ∧ decodeWord 0x2ABC = .ok (.call 0xABC) ∧
  decodeWord 0x332A = .ok (.seImm 3 0x2A) ∧ decodeWord 0x4F01 = .ok (.sneImm 15 0x01) ∧
  decodeWord 0x5120 = .ok (.seReg 1 2) ∧ decodeWord 0x6A2F = .ok (.ldImm 10 0x2F) ∧
  decodeWord 0x7105 = .ok (.addImm 1 0x05) ∧ decodeWord 0x9AB0 = .ok (.sneReg 10 11) ∧
  decodeWord 0xB300 = .ok (.jpV0 0x300) ∧
  decodeWord 0x8124 = .ok (.addReg 1 2) ∧ decodeWord 0x81A6 = .ok (.shr 1 10) ∧
  decodeWord 0xA2F0 = .ok (.ldI 0x2F0) ∧ decodeWord 0xC30F = .ok (.rnd 3 0x0F) ∧
  decodeWord 0xD012 = .ok (.drw 0 1 2) ∧ decodeWord 0xE2A1 = .ok (.sknp 2) ∧
  decodeWord 0xF50A = .ok (.ldVxK 5) ∧ decodeWord 0xF255 = .ok (.storeRegs 2) ∧
  decodeWord 0x5123 = .error (.illegalInstruction 0x5123)

/-! ### The step (40_step_cycle.md) -/

/-- 40_step_cycle.md section 1: where the bytes at `pc` and `pc + 1`, the first one high, decode to
`i`, the step is `exec i` followed by the timer phase, which a step that raised a fault leaves out. -/
def Obligations.StepRunsTheDecodedInstruction : Prop :=
  ∀ (s : State) (i : Instr), s.fault = none → s.pc.toNat ≤ 0xFFE →
    decodeWord (s.readMem s.pc.toNat ++ s.readMem (s.pc.toNat + 1)) = .ok i →
    step s = finishStep (exec i s) ∧
    (∀ t, exec i s = .next t → t.fault = none → step s = .next t.tick) ∧
    (∀ t, exec i s = .next t → t.fault ≠ none → step s = .next t)

/-- The model's load helper (log entry 11; byte order by decision D3, log entry 12): with an
instruction's word placed by `withFetchWord`, the next step runs that instruction, from any state whose
memory is in canonical form. -/
def Obligations.PlacedWordIsTheNextInstruction : Prop :=
  ∀ (s : State) (i : Instr), s.mem.wf = true → (s.withFetchWord 16 (encode i).toNat).runs i

/-- 60_exceptions.md section 1 (decision D6, log entry 15; record by D15): a fetch above 0xFFE faults
before decode, with no word, and nothing else changes, PC and the timers included
(60_exceptions.md section 2; decisions D14, D21, log entries 1 and 18). -/
def Obligations.FetchBeyondMemoryFaults : Prop :=
  ∀ s : State, s.fault = none → 0xFFE < s.pc.toNat →
    step s = .next (s.faulted .fetchAddress 0 s.pc.toNat)

/-- 60_exceptions.md section 1 (record by decision D15; byte order by D3, log entry 12): a word that
decodes to nothing faults, and nothing else changes, PC and the timers included (60_exceptions.md
section 2; decisions D14, D21, log entries 1 and 18). -/
def Obligations.IllegalWordFaults : Prop :=
  ∀ s : State, s.fault = none → s.pc.toNat ≤ 0xFFE → wordLegal s.fetchWord = false →
    step s = .next (s.faulted .illegalInstruction s.fetchWord 0)

/-- 60_exceptions.md section 2 (decisions D14, D21): a step of a machine that has not faulted always
answers a next state, which either has no fault or is the old state with only the record set; a
faulted machine does nothing at all. -/
def Obligations.FaultsArePreciseAndSticky : Prop :=
  (∀ s : State, s.fault = none →
    ∃ t, step s = .next t ∧ (t.fault = none ∨ ∃ r, t = { s with fault := some r })) ∧
  (∀ s : State, s.fault ≠ none → step s = .next s)

/-- 60_exceptions.md sections 1 and 2 (record by decision D15, log entry 1; byte order of the word by
D3, ranges by D6, D7, D9, D12, log entries 12 and 15): what the record of a faulting step holds. -/
def Obligations.FaultRecordIdentifiesTheFault : Prop :=
  ∀ (s t : State) (r : FaultRecord), s.fault = none → step s = .next t → t.fault = some r →
    r.pc = s.pc ∧
    (r.cause = .fetchAddress → r.word = 0 ∧ r.info = s.pc.toNat ∧ 0xFFE < r.info) ∧
    (r.cause ≠ .fetchAddress → r.word = s.fetchWord) ∧
    (r.cause = .illegalInstruction → r.info = 0 ∧ wordLegal r.word = false) ∧
    (r.cause = .memoryAddress → 0xFFF < r.info) ∧
    (r.cause = .stack → 15 < r.info) ∧
    (r.cause = .displayIndex → 255 < r.info)

/-- Only six instructions can fault in execute (60_exceptions.md section 1, 40_step_cycle.md
section 1; which of them fault is decisions D7, D9, D12, log entry 15): every other one completes in
every state, with the fault record as it was. -/
def Obligations.OnlySixInstructionsCanFault : Prop :=
  ∀ (i : Instr) (s : State), i ≠ .ret → (∀ nnn, i ≠ .call nnn) → (∀ x y n, i ≠ .drw x y n) →
    (∀ x, i ≠ .ldB x) → (∀ x, i ≠ .storeRegs x) → (∀ x, i ≠ .loadRegs x) →
    ∃ t, exec i s = .next t ∧ t.fault = s.fault

/-- 40_step_cycle.md R106: after execute and advance, in every step that raised no fault, each timer
is one less than execute left it, floor at 0, and nothing else changes. -/
def Obligations.TimersCountDownAfterExecute : Prop :=
  ∀ (s u : State) (i : Instr), s.runs i → exec i s = .next u → u.fault = none →
    ∃ t, step s = .next t ∧ t.dt.toNat = u.dt.toNat - 1 ∧ t.st.toNat = u.st.toNat - 1 ∧
      t = { u with dt := t.dt, st := t.st }

/-- 10_state.md section 15 (derived there): DT rises only by Fx15 and ST only by Fx18. A faulting step
leaves both alone (decision D21, log entry 18). -/
def Obligations.TimersRiseOnlyWhenWritten : Prop :=
  ∀ (s t : State) (i : Instr), s.runs i → step s = .next t →
    ((∀ x, i ≠ .ldDtVx x) → t.dt.toNat ≤ s.dt.toNat) ∧
    ((∀ x, i ≠ .ldStVx x) → t.st.toNat ≤ s.st.toNat)

/-! ### Control flow (41_control_flow.md) -/

/-- 00EE (41_control_flow.md section on 00EE; decisions D9, D10): the return lands on the slot plus 2
and SP falls by one, modulo 256; with SP above 15 the stack fault, and only the fault record changes
(60_exceptions.md section 2; decisions D14, D15, log entry 1). The stack itself keeps its slots. -/
def Obligations.ReturnGoesToTheSlotPlusTwo : Prop :=
  ∀ s : State,
    (s.sp.toNat ≤ 15 → ∃ t slot, exec .ret s = .next t ∧ s.readStack s.sp.toNat = some slot ∧
      t.pc.toNat = (slot.toNat + 2) % 65536 ∧ t.sp.toNat = (s.sp.toNat + 255) % 256 ∧
      s.onlyStackAndPc t ∧ t.stack = s.stack) ∧
    (15 < s.sp.toNat → exec .ret s = .next (s.faulted .stack 0x00EE s.sp.toNat))

/-- 41_control_flow.md R121: the jump lands on `nnn` exactly and changes nothing else. -/
def Obligations.JumpLandsOnItsTarget : Prop :=
  ∀ (nnn : BitVec 12) (s : State),
    ∃ t, exec (.jp nnn) s = .next t ∧ t.pc.toNat = nnn.toNat ∧ s.onlyPc t

/-- 2nnn (41_control_flow.md section on 2nnn; decisions D9, D10): SP is incremented first, modulo 256,
its new slot receives the call site, every other slot is as before; where the incremented SP is above
15 the stack fault, and only the fault record changes (60_exceptions.md section 2; decisions D14, D15,
log entry 1). -/
def Obligations.CallPushesTheCallSite : Prop :=
  ∀ (nnn : BitVec 12) (s : State),
    ((s.sp.toNat + 1) % 256 ≤ 15 → ∃ t, exec (.call nnn) s = .next t ∧
      t.sp.toNat = (s.sp.toNat + 1) % 256 ∧ t.readStack t.sp.toNat = some s.pc ∧
      (∀ k, k ≠ t.sp.toNat → t.readStack k = s.readStack k) ∧
      t.pc.toNat = nnn.toNat ∧ s.onlyStackAndPc t) ∧
    (15 < (s.sp.toNat + 1) % 256 →
      exec (.call nnn) s =
        .next (s.faulted .stack (encode (.call nnn)) ((s.sp.toNat + 1) % 256)))

/-- Bnnn (41_control_flow.md section on Bnnn; decision D11): the jump lands on `V[0] + nnn`, with no
reduction, and changes nothing else. -/
def Obligations.OffsetJumpAddsV0 : Prop :=
  ∀ (nnn : BitVec 12) (s : State),
    ∃ t, exec (.jpV0 nnn) s = .next t ∧ t.pc.toNat = (s.readV 0).toNat + nnn.toNat ∧ s.onlyPc t

/-- 41_control_flow.md, 2nnn corner case (e): a call and then a return, wherever they are executed,
leave SP as it was and PC two past the call site (decision D10). -/
def Obligations.CallThenReturnComesBack : Prop :=
  ∀ (nnn : BitVec 12) (s : State), (s.sp.toNat + 1) % 256 ≤ 15 →
    ∃ t u, exec (.call nnn) s = .next t ∧ exec .ret t = .next u ∧ u.sp = s.sp ∧
      u.pc.toNat = (s.pc.toNat + 2) % 65536

/-- 41_control_flow.md, 00EE corner case (c), for every nest begun with SP at 0 to 14 that fits in the
slots above SP (decision D10; a nest begun at SP = 0xFF, whose first call wraps to slot 0, is not
covered here): nested calls followed by as many returns come back, in reverse order, to two past the
first call site, with SP and all slots up to it as they were. -/
def Obligations.NestedCallsReturnInReverseOrder : Prop :=
  ∀ (targets : List (BitVec 12)) (s : State), targets ≠ [] →
    s.sp.toNat + targets.length ≤ 15 →
    ∃ t, execAll (targets.map .call ++ List.replicate targets.length .ret) s = .next t ∧
      t.sp = s.sp ∧ t.pc.toNat = (s.pc.toNat + 2) % 65536 ∧
      (∀ k ≤ s.sp.toNat, t.readStack k = s.readStack k) ∧ s.onlyStackAndPc t

/-! ### Skips (42_skips.md) -/

/-- 42_skips.md R130, R131: skip on register against immediate; nothing but PC changes. -/
def Obligations.SkipsCompareWithTheImmediate : Prop :=
  ∀ (x : Reg) (nn : Byte) (s : State),
    (∃ t, exec (.seImm x nn) s = .next t ∧ s.onlyPc t ∧
      t.pc.toNat = (s.pc.toNat + if s.readV x = nn then 4 else 2) % 65536) ∧
    (∃ t, exec (.sneImm x nn) s = .next t ∧ s.onlyPc t ∧
      t.pc.toNat = (s.pc.toNat + if s.readV x ≠ nn then 4 else 2) % 65536)

/-- 42_skips.md R132, R133: skip on register against register; nothing but PC changes. -/
def Obligations.SkipsCompareTwoRegisters : Prop :=
  ∀ (x y : Reg) (s : State),
    (∃ t, exec (.seReg x y) s = .next t ∧ s.onlyPc t ∧
      t.pc.toNat = (s.pc.toNat + if s.readV x = s.readV y then 4 else 2) % 65536) ∧
    (∃ t, exec (.sneReg x y) s = .next t ∧ s.onlyPc t ∧
      t.pc.toNat = (s.pc.toNat + if s.readV x ≠ s.readV y then 4 else 2) % 65536)

/-- 42_skips.md R134, R135: skip on the whole key latch against the whole register; nothing but PC
changes. -/
def Obligations.SkipsCompareWithTheKeyLatch : Prop :=
  ∀ (x : Reg) (s : State),
    (∃ t, exec (.skp x) s = .next t ∧ s.onlyPc t ∧
      t.pc.toNat = (s.pc.toNat + if s.key = s.readV x then 4 else 2) % 65536) ∧
    (∃ t, exec (.sknp x) s = .next t ∧ s.onlyPc t ∧
      t.pc.toNat = (s.pc.toNat + if s.key ≠ s.readV x then 4 else 2) % 65536)

/-- 42_skips.md, sections on Ex9E, corner case (b), and on ExA1 (`KEY_NONE` is above 15, decision D17):
with no key pressed, no register that holds a key code matches. -/
def Obligations.NoKeyMatchesNoKeyCode : Prop :=
  ∀ (x : Reg) (s : State), s.key = Config.keyNone → (s.readV x).toNat ≤ 15 →
    exec (.skp x) s = .next { s with pc := s.pc + 2 } ∧
    exec (.sknp x) s = .next { s with pc := s.pc + 4 }

/-! ### Immediates and random (43_immediate_random.md) -/

/-- 43_immediate_random.md R140. -/
def Obligations.LoadImmediateWritesTheByte : Prop :=
  ∀ (x : Reg) (nn : Byte) (s : State), ∃ t, exec (.ldImm x nn) s = .next t ∧
    t.readV x = nn ∧ s.advanced t ∧ s.sameRegsBut t [x] ∧ s.onlyRegsAndPc t

/-- 43_immediate_random.md R141: the sum wraps and no flag is written. -/
def Obligations.AddImmediateWrapsWithoutFlag : Prop :=
  ∀ (x : Reg) (nn : Byte) (s : State), ∃ t, exec (.addImm x nn) s = .next t ∧
    (t.readV x).toNat = ((s.readV x).toNat + nn.toNat) % 256 ∧
    s.advanced t ∧ s.sameRegsBut t [x] ∧ s.onlyRegsAndPc t

/-- 43_immediate_random.md R142. -/
def Obligations.LoadIndexWritesTheAddress : Prop :=
  ∀ (nnn : BitVec 12) (s : State), ∃ t, exec (.ldI nnn) s = .next t ∧
    t.i.toNat = nnn.toNat ∧ s.advanced t ∧ s.onlyIAndPc t

/-- Cxnn (43_immediate_random.md section on Cxnn; decision D19): the free byte of this draw, masked,
whatever that byte is; the next Cxnn takes another one. The draw count is the model's (log entry 6). -/
def Obligations.RandomByteIsMasked : Prop :=
  ∀ (x : Reg) (nn : Byte) (s : State), ∃ t, exec (.rnd x nn) s = .next t ∧
    t.readV x = Config.randomByte s.draws &&& nn ∧ t.readV x &&& ~~~nn = 0 ∧
    t.draws = s.draws + 1 ∧ s.advanced t ∧ s.sameRegsBut t [x] ∧
    t = { s with v := t.v, pc := t.pc, draws := t.draws } ∧ s.sameMem t

/-! ### ALU (44_alu.md) -/

/-- 44_alu.md R150: 8xy0 adds, wrapping, and leaves VF alone. -/
def Obligations.LoadRegisterAddsWithoutFlag : Prop :=
  ∀ (x y : Reg) (s : State), ∃ t, exec (.ldReg x y) s = .next t ∧
    (t.readV x).toNat = ((s.readV x).toNat + (s.readV y).toNat) % 256 ∧
    s.advanced t ∧ s.sameRegsBut t [x] ∧ s.onlyRegsAndPc t

/-- 44_alu.md R151, R152, R153: OR, AND, XOR, with VF unchanged unless it is the destination. -/
def Obligations.BitwiseOperationsLeaveTheFlag : Prop :=
  ∀ (x y : Reg) (s : State),
    (∃ t, exec (.orReg x y) s = .next t ∧ t.readV x = s.readV x ||| s.readV y ∧
      s.advanced t ∧ s.sameRegsBut t [x] ∧ s.onlyRegsAndPc t) ∧
    (∃ t, exec (.andReg x y) s = .next t ∧ t.readV x = s.readV x &&& s.readV y ∧
      s.advanced t ∧ s.sameRegsBut t [x] ∧ s.onlyRegsAndPc t) ∧
    (∃ t, exec (.xorReg x y) s = .next t ∧ t.readV x = s.readV x ^^^ s.readV y ∧
      s.advanced t ∧ s.sameRegsBut t [x] ∧ s.onlyRegsAndPc t)

/-- 8xy4 (44_alu.md section 3; with `x` = 15 the flag is written last, decision D13). -/
def Obligations.AddSetsTheCarry : Prop :=
  ∀ (x y : Reg) (s : State), ∃ t, exec (.addReg x y) s = .next t ∧
    (x ≠ vf → (t.readV x).toNat = ((s.readV x).toNat + (s.readV y).toNat) % 256) ∧
    (t.readV vf).toNat = (if 255 < (s.readV x).toNat + (s.readV y).toNat then 1 else 0) ∧
    s.advanced t ∧ s.sameRegsBut t [x, vf] ∧ s.onlyRegsAndPc t

/-- 8xy5 and 8xy7 (44_alu.md section 3; with `x` = 15 the flag is written last, decision D13): the
difference wraps and VF is NOT borrow, 1 for equal operands. -/
def Obligations.SubtractionsSetNotBorrow : Prop :=
  ∀ (x y : Reg) (s : State),
    (∃ t, exec (.subReg x y) s = .next t ∧
      (x ≠ vf → ((t.readV x).toNat : Int) = ((s.readV x).toNat - (s.readV y).toNat : Int) % 256) ∧
      (t.readV vf).toNat = (if (s.readV y).toNat ≤ (s.readV x).toNat then 1 else 0) ∧
      s.advanced t ∧ s.sameRegsBut t [x, vf] ∧ s.onlyRegsAndPc t) ∧
    (∃ t, exec (.subnReg x y) s = .next t ∧
      (x ≠ vf → ((t.readV x).toNat : Int) = ((s.readV y).toNat - (s.readV x).toNat : Int) % 256) ∧
      (t.readV vf).toNat = (if (s.readV x).toNat ≤ (s.readV y).toNat then 1 else 0) ∧
      s.advanced t ∧ s.sameRegsBut t [x, vf] ∧ s.onlyRegsAndPc t)

/-- 8xy6 and 8xyE (44_alu.md section 3; with `x` = 15 VF is written first and then shifted, decision
D13; `y` is ignored, decision D28): VF gets the whole byte `V[x] | 1` or `V[x] | 8`. -/
def Obligations.ShiftsPutAnOrInTheFlag : Prop :=
  ∀ (x y : Reg) (s : State),
    (∃ t, exec (.shr x y) s = .next t ∧
      (x ≠ vf → (t.readV x).toNat = (s.readV x).toNat / 2 ∧ t.readV vf = s.readV x ||| 0x01) ∧
      (x = vf → (t.readV vf).toNat = (s.readV vf).toNat / 2) ∧
      s.advanced t ∧ s.sameRegsBut t [x, vf] ∧ s.onlyRegsAndPc t) ∧
    (∃ t, exec (.shl x y) s = .next t ∧
      (x ≠ vf → (t.readV x).toNat = (s.readV x).toNat * 2 % 256 ∧
        t.readV vf = s.readV x ||| 0x08) ∧
      (x = vf → (t.readV vf).toNat = (s.readV vf ||| 0x08).toNat * 2 % 256) ∧
      s.advanced t ∧ s.sameRegsBut t [x, vf] ∧ s.onlyRegsAndPc t)

/-! ### Display (45_display.md) -/

/-- 45_display.md R170: every display byte is 0, and nothing else but PC changes. -/
def Obligations.ClearBlanksTheDisplay : Prop :=
  ∀ s : State, ∃ t, exec .cls s = .next t ∧ (∀ k < 256, t.readDisp k = 0) ∧ s.advanced t ∧
    t = { s with disp := t.disp, pc := t.pc } ∧ s.sameMem t

/-- Dxyn in range (45_display.md section on Dxyn; range by decisions D7, D12, VF as coordinate by D13):
each row's sprite byte is XORed onto its display byte, every other display byte is as before, VF is the
collision, and nothing else but PC changes. -/
def Obligations.DrawXorsTheSprite : Prop :=
  ∀ (x y : Reg) (n : Nibble) (s : State),
    let idx := fun r => (s.readV x).toNat / 8 + ((s.readV y).toNat + r) * 8
    (∀ r < n.toNat, s.i.toNat + r ≤ 0xFFF ∧ idx r ≤ 255) →
    ∃ t, exec (.drw x y n) s = .next t ∧
      (∀ r < n.toNat, t.readDisp (idx r) = s.readDisp (idx r) ^^^ s.readMem (s.i.toNat + r)) ∧
      (∀ k, (∀ r < n.toNat, k ≠ idx r) → t.readDisp k = s.readDisp k) ∧
      ((∃ r < n.toNat, s.readDisp (idx r) &&& s.readMem (s.i.toNat + r) ≠ 0) → t.readV vf = 1) ∧
      ((∀ r < n.toNat, s.readDisp (idx r) &&& s.readMem (s.i.toNat + r) = 0) → t.readV vf = 0) ∧
      s.sameRegsBut t [vf] ∧ s.advanced t ∧
      t = { s with v := t.v, pc := t.pc, disp := t.disp } ∧ s.sameMem t

/-- Dxyn out of range (45_display.md section on Dxyn, 60_exceptions.md section 2; decisions D7, D12,
D16, log entries 15 and 18): the first failing row decides, its memory address before its display
index, and only the fault record changes (decisions D14, D15, log entry 1). -/
def Obligations.DrawFaultsAtTheFirstBadRow : Prop :=
  ∀ (x y : Reg) (n : Nibble) (s : State) (r : Nat),
    let idx := fun r => (s.readV x).toNat / 8 + ((s.readV y).toNat + r) * 8
    r < n.toNat → (∀ q < r, s.i.toNat + q ≤ 0xFFF ∧ idx q ≤ 255) →
    (0xFFF < s.i.toNat + r →
      exec (.drw x y n) s =
        .next (s.faulted .memoryAddress (encode (.drw x y n)) (s.i.toNat + r))) ∧
    (s.i.toNat + r ≤ 0xFFF → 255 < idx r →
      exec (.drw x y n) s = .next (s.faulted .displayIndex (encode (.drw x y n)) (idx r)))

/-- 45_display.md, Dxyn corner case (h): two successful draws of one sprite at one place restore the
display, where neither coordinate is VF. -/
def Obligations.DrawingTwiceRestoresTheDisplay : Prop :=
  ∀ (x y : Reg) (n : Nibble) (s t u : State), x ≠ vf → y ≠ vf → s.fault = none →
    exec (.drw x y n) s = .next t → t.fault = none →
    exec (.drw x y n) t = .next u → u.disp = s.disp ∧ u.fault = none

/-! ### Timers and key latch (46_timers_keys.md) -/

/-- 46_timers_keys.md, sections on Fx07 and Fx0A: DT, or the key latch as it stands without waiting,
into `V[x]`. The clause on the whole step of Fx07, which loads the DT it began with before the timer
phase counts DT down, is the spec's derived sentence there (from the order of the step and the timer
phase, 40_step_cycle.md). -/
def Obligations.TimerAndKeyReadsFillTheRegister : Prop :=
  ∀ (x : Reg) (s : State),
    (∃ t, exec (.ldVxDt x) s = .next t ∧ t.readV x = s.dt ∧
      s.advanced t ∧ s.sameRegsBut t [x] ∧ s.onlyRegsAndPc t) ∧
    (s.runs (.ldVxDt x) → ∃ t, step s = .next t ∧ t.readV x = s.dt ∧
      t.dt.toNat = s.dt.toNat - 1) ∧
    (∃ t, exec (.ldVxK x) s = .next t ∧ t.readV x = s.key ∧
      s.advanced t ∧ s.sameRegsBut t [x] ∧ s.onlyRegsAndPc t)

/-- 46_timers_keys.md, sections on Fx15 and Fx18: `V[x]` into DT or ST, nothing else but PC. The
clauses on the whole step, whose timer phase counts the new value down, floor at 0, are the spec's
derived sentences there (from the order of the step and the timer phase, 40_step_cycle.md). -/
def Obligations.TimerWritesTakeTheRegister : Prop :=
  ∀ (x : Reg) (s : State),
    (∃ t, exec (.ldDtVx x) s = .next t ∧ t.dt = s.readV x ∧ s.advanced t ∧
      t = { s with dt := t.dt, pc := t.pc } ∧ s.sameMem t) ∧
    (s.runs (.ldDtVx x) → ∃ t, step s = .next t ∧ t.dt.toNat = (s.readV x).toNat - 1) ∧
    (∃ t, exec (.ldStVx x) s = .next t ∧ t.st = s.readV x ∧ s.advanced t ∧
      t = { s with st := t.st, pc := t.pc } ∧ s.sameMem t) ∧
    (s.runs (.ldStVx x) → ∃ t, step s = .next t ∧ t.st.toNat = (s.readV x).toNat - 1)

/-! ### Address register and memory transfer (47_index_memory.md) -/

/-- Fx1E (47_index_memory.md section on Fx1E; wrap by decision D8): I plus `V[x]` modulo 65536, VF
untouched. -/
def Obligations.AddToIndexWraps : Prop :=
  ∀ (x : Reg) (s : State), ∃ t, exec (.addI x) s = .next t ∧
    t.i.toNat = (s.i.toNat + (s.readV x).toNat) % 65536 ∧ s.advanced t ∧ s.onlyIAndPc t

/-- 47_index_memory.md R191: I is the whole byte times 5, whatever memory holds. -/
def Obligations.GlyphAddressIsFiveTimesTheRegister : Prop :=
  ∀ (x : Reg) (s : State), ∃ t, exec (.ldF x) s = .next t ∧
    t.i.toNat = (s.readV x).toNat * 5 ∧ s.advanced t ∧ s.onlyIAndPc t

/-- Fx33 (47_index_memory.md section on Fx33; range by decision D7): three digits at I, every other
byte as before; out of range the fault names the lowest bad address (D16) and only the fault record
changes (60_exceptions.md section 2; decisions D14, D15, log entry 1). Memory is in canonical form
(`EveryStepKeepsTheInvariant`). -/
def Obligations.DecimalDigitsAreStored : Prop :=
  ∀ (x : Reg) (s : State), s.mem.wf = true →
    (s.i.toNat + 2 ≤ 0xFFF → ∃ t, exec (.ldB x) s = .next t ∧
      (t.readMem s.i.toNat).toNat = (s.readV x).toNat / 100 ∧
      (t.readMem (s.i.toNat + 1)).toNat = (s.readV x).toNat / 10 % 10 ∧
      (t.readMem (s.i.toNat + 2)).toNat = (s.readV x).toNat % 10 ∧
      (∀ a, (a < s.i.toNat ∨ s.i.toNat + 2 < a) → t.readMem a = s.readMem a) ∧
      s.advanced t ∧ s.onlyMemAndPc t) ∧
    (0xFFF < s.i.toNat + 2 →
      exec (.ldB x) s =
        .next (s.faulted .memoryAddress (encode (.ldB x)) (max s.i.toNat 0x1000)))

/-- Fx55 (47_index_memory.md section on Fx55; range by decision D7): V0 to Vx at I to I + x, every
other byte as before, I unchanged; out of range the fault names the lowest bad address (D16) and only
the fault record changes (60_exceptions.md section 2; decisions D14, D15, log entry 1). Memory is in
canonical form (`EveryStepKeepsTheInvariant`). -/
def Obligations.RegistersAreStored : Prop :=
  ∀ (x : Reg) (s : State), s.mem.wf = true →
    (s.i.toNat + x.val ≤ 0xFFF → ∃ t, exec (.storeRegs x) s = .next t ∧
      (∀ k ≤ x, t.readMem (s.i.toNat + k.val) = s.readV k) ∧
      (∀ a, (a < s.i.toNat ∨ s.i.toNat + x.val < a) → t.readMem a = s.readMem a) ∧
      s.advanced t ∧ s.onlyMemAndPc t) ∧
    (0xFFF < s.i.toNat + x.val →
      exec (.storeRegs x) s =
        .next (s.faulted .memoryAddress (encode (.storeRegs x)) (max s.i.toNat 0x1000)))

/-- Fx65 (47_index_memory.md section on Fx65; range by decision D7): V0 to Vx from I to I + x, the
registers above x, I and memory unchanged; out of range the fault names the lowest bad address (D16)
and only the fault record changes (60_exceptions.md section 2; decisions D14, D15, log entry 1). -/
def Obligations.RegistersAreLoaded : Prop :=
  ∀ (x : Reg) (s : State),
    (s.i.toNat + x.val ≤ 0xFFF → ∃ t, exec (.loadRegs x) s = .next t ∧
      (∀ k ≤ x, t.readV k = s.readMem (s.i.toNat + k.val)) ∧
      (∀ k, x < k → t.readV k = s.readV k) ∧ s.advanced t ∧ s.onlyRegsAndPc t) ∧
    (0xFFF < s.i.toNat + x.val →
      exec (.loadRegs x) s =
        .next (s.faulted .memoryAddress (encode (.loadRegs x)) (max s.i.toNat 0x1000)))

/-- 20_memory.md section 9 (derived there), with what Fx55 stores where (47_index_memory.md, section on
Fx55) and the byte at the lower address as the high byte of the word (20_memory.md section 2; decision
D3, log entry 12): a store is seen by the next fetch, with nothing in between. -/
def Obligations.StoredBytesAreFetchedNext : Prop :=
  ∀ (x k j : Reg) (s t : State), s.mem.wf = true → s.i.toNat + x.val ≤ 0xFFF →
    exec (.storeRegs x) s = .next t → j.val = k.val + 1 → j ≤ x →
    (t.setPc (s.i + BitVec.ofNat 16 k.val)).fetchWord = s.readV k ++ s.readV j

/-! ### Whole-machine rules -/

/-- 10_state.md section 1: the V registers each instruction may write; every other one is as before,
after an execution that faults too (60_exceptions.md section 2; decision D14, log entry 1). -/
def Obligations.OnlyTheNamedRegistersAreWritten : Prop :=
  ∀ (i : Instr) (s t : State) (k : Reg), exec i s = .next t → i.writesReg k = false →
    t.readV k = s.readV k

/-- 20_memory.md section 4, 45_display.md section on the composer (derived there), 10_state.md
section 5: who writes memory, the display, the stack and SP, I, and the timers, an
execution that faults included (60_exceptions.md section 2; decision D14, log entry 1). -/
def Obligations.EachArrayHasItsOwnWriters : Prop :=
  ∀ (i : Instr) (s t : State), exec i s = .next t →
    (i.writesMem = false → t.mem = s.mem) ∧
    (i.writesDisp = false → t.disp = s.disp) ∧
    ((∀ nnn, i ≠ .call nnn) → t.stack = s.stack) ∧
    (i ≠ .ret → (∀ nnn, i ≠ .call nnn) → t.sp = s.sp) ∧
    ((∀ nnn, i ≠ .ldI nnn) → (∀ x, i ≠ .addI x) → (∀ x, i ≠ .ldF x) → t.i = s.i) ∧
    ((∀ x, i ≠ .ldDtVx x) → t.dt = s.dt) ∧
    ((∀ x, i ≠ .ldStVx x) → t.st = s.st)

/-- 10_state.md section 10: CORE never writes the key latch, and no instruction but Ex9E, ExA1 and
Fx0A reads it: changing the latch changes nothing else they do. The latch as a state field is the
model's (log entry 3). -/
def Obligations.KeyLatchReachesOnlyItsReaders : Prop :=
  ∀ (i : Instr) (s t : State), exec i s = .next t →
    t.key = s.key ∧
    (i.readsKey = false → ∀ k, exec i (s.setKey k) = .next (t.setKey k))

/-- 10_state.md section 6: ST is read by no instruction: whatever it holds, everything else comes out
the same. -/
def Obligations.SoundTimerIsReadByNoInstruction : Prop :=
  ∀ (i : Instr) (s t : State) (b : Byte), exec i s = .next t →
    ∃ u, exec i (s.setSt b) = .next u ∧ u.setSt 0 = t.setSt 0 ∧
      ((∀ x, i ≠ .ldStVx x) → u.st = b)

/-- 43_immediate_random.md, Cxnn corner case (c): no other instruction consults a random byte, which
in the model is the draw count (log entry 6). -/
def Obligations.OnlyRandomInstructionDraws : Prop :=
  ∀ (i : Instr) (s t : State) (n : Nat), (∀ x nn, i ≠ .rnd x nn) → exec i s = .next t →
    t.draws = s.draws ∧ exec i { s with draws := n } = .next { t with draws := n }

/-- The invariant: memory in canonical form, SP 0 to 15 or 0xFF (10_state.md section 15), every stack
slot a fetchable address, PC at most 0x10FE, a recorded fault at PC. Every step keeps it, and so does
the host's one move. -/
def Obligations.EveryStepKeepsTheInvariant : Prop :=
  ∀ s : State, s.Inv → (∀ t, step s = .next t → t.Inv) ∧ (∀ k, (s.setKey k).Inv)

/-- The state after reset meets the invariant. -/
def Obligations.ResetMeetsTheInvariant : Prop := State.reset.Inv

/-- Every state the host can reset into meets the invariant. -/
def Obligations.EveryHostResetMeetsTheInvariant : Prop :=
  ∀ (rom : List Byte) (font : Vector Byte 80) (s : State), hostReset rom font = .ok s → s.Inv

/-- 70_reset_and_hazards.md section 6 (decision D25, derived there): at rest, after any number of
steps nothing but the timers has changed, and they have fallen by as many, floor at 0. -/
def Obligations.RestOnlyRunsTheTimersDown : Prop :=
  ∀ (s : State) (n : Nat), s.atRest →
    ∃ t, core.run n s = .next t ∧ t.atRest ∧ t = { s with dt := t.dt, st := t.st } ∧
      t.dt.toNat = s.dt.toNat - n ∧ t.st.toNat = s.st.toNat - n
end

