-- ==== Sys2Proof/Laws/Decode.lean ====
section
/-! SUPPORT. The four nibbles and the formats as numbers, and what each mask of the opcode table
leaves of an encoded word. -/

namespace Sys2Proof

/-! ### Nibbles of a word, as numbers -/

theorem toNat_nibble1 (w : Word) : (nibble1 w).toNat = w.toNat / 4096 := by
  have := w.isLt
  simp only [nibble1, BitVec.extractLsb'_toNat, Nat.shiftRight_eq_div_pow]
  omega

theorem toNat_nibble2 (w : Word) : (nibble2 w).toNat = w.toNat / 256 % 16 := by
  simp only [nibble2, BitVec.extractLsb'_toNat, Nat.shiftRight_eq_div_pow]

theorem toNat_nibble3 (w : Word) : (nibble3 w).toNat = w.toNat / 16 % 16 := by
  simp only [nibble3, BitVec.extractLsb'_toNat, Nat.shiftRight_eq_div_pow]

theorem toNat_nibble4 (w : Word) : (nibble4 w).toNat = w.toNat % 16 := by
  simp only [nibble4, BitVec.extractLsb'_toNat, Nat.shiftRight_eq_div_pow, Nat.pow_zero, Nat.div_one]

/-! ### Fields, as numbers -/

theorem toNat_append {m n : Nat} (a : BitVec m) (b : BitVec n) :
    (a ++ b).toNat = a.toNat * 2 ^ n + b.toNat := by
  rw [BitVec.toNat_append, ← Nat.shiftLeft_add_eq_or_of_lt b.isLt, Nat.shiftLeft_eq]

theorem toNat_immByte (n3 n4 : Nibble) : (immByte n3 n4).toNat = n3.toNat * 16 + n4.toNat := by
  simp only [immByte, toNat_append]
  rfl

theorem toNat_immAddr (n2 n3 n4 : Nibble) :
    (immAddr n2 n3 n4).toNat = n2.toNat * 256 + n3.toNat * 16 + n4.toNat := by
  simp only [immAddr, toNat_append]
  omega

theorem toNat_wordOfBytes (a b : Byte) : (wordOfBytes a b).toNat = a.toNat * 256 + b.toNat := by
  simp only [wordOfBytes, toNat_append]
  rfl

theorem val_regOf (n : Nibble) : (regOf n).val = n.toNat := rfl

/-! ### Encoded words, as numbers -/

theorem toNat_formatNnn (n1 : Nibble) (nnn : BitVec 12) :
    (formatNnn n1 nnn).toNat = n1.toNat * 4096 + nnn.toNat := by
  simp only [formatNnn, toNat_append]
  rfl

theorem toNat_formatXnn (n1 : Nibble) (x : Reg) (nn : Byte) :
    (formatXnn n1 x nn).toNat = n1.toNat * 4096 + x.val * 256 + nn.toNat := by
  simp only [formatXnn, toNat_append, BitVec.toNat_ofFin]
  omega

theorem toNat_formatXyn (n1 : Nibble) (x y : Reg) (n4 : Nibble) :
    (formatXyn n1 x y n4).toNat = n1.toNat * 4096 + x.val * 256 + y.val * 16 + n4.toNat := by
  simp only [formatXyn, toNat_append, BitVec.toNat_ofFin]
  omega

/-! ### Masks -/

theorem formatNnn_and_F000 (n1 : Nibble) (nnn : BitVec 12) :
    formatNnn n1 nnn &&& 0xF000 = formatNnn n1 0 := by
  change (n1 ++ nnn) &&& (0xF#4 ++ 0#12) = _
  rw [BitVec.and_append, BitVec.and_zero]
  exact congrArg (· ++ 0#12) (BitVec.and_allOnes (x := n1))

theorem formatXnn_and_F000 (n1 : Nibble) (x : Reg) (nn : Byte) :
    formatXnn n1 x nn &&& 0xF000 = formatXnn n1 0 0 := by
  change (n1 ++ (BitVec.ofFin x : Nibble) ++ nn) &&& (0xF#4 ++ 0#4 ++ 0#8) = n1 ++ 0#4 ++ 0#8
  rw [BitVec.and_append, BitVec.and_append, BitVec.and_zero, BitVec.and_zero]
  exact congrArg (fun a : Nibble => a ++ 0#4 ++ 0#8) (BitVec.and_allOnes (x := n1))

theorem formatXnn_and_F0FF (n1 : Nibble) (x : Reg) (nn : Byte) :
    formatXnn n1 x nn &&& 0xF0FF = formatXnn n1 0 nn := by
  change (n1 ++ (BitVec.ofFin x : Nibble) ++ nn) &&& (0xF#4 ++ 0#4 ++ 0xFF#8) = n1 ++ 0#4 ++ nn
  rw [BitVec.and_append, BitVec.and_append, BitVec.and_zero]
  exact congrArg₂ (fun (a : Nibble) (b : Byte) => a ++ 0#4 ++ b) (BitVec.and_allOnes (x := n1))
    (BitVec.and_allOnes (x := nn))

theorem formatXyn_and_F000 (n1 : Nibble) (x y : Reg) (n4 : Nibble) :
    formatXyn n1 x y n4 &&& 0xF000 = formatXyn n1 0 0 0 := by
  change (n1 ++ (BitVec.ofFin x : Nibble) ++ (BitVec.ofFin y : Nibble) ++ n4) &&&
    (0xF#4 ++ 0#4 ++ 0#4 ++ 0#4) = n1 ++ 0#4 ++ 0#4 ++ 0#4
  rw [BitVec.and_append, BitVec.and_append, BitVec.and_append, BitVec.and_zero, BitVec.and_zero,
    BitVec.and_zero]
  exact congrArg (fun a : Nibble => a ++ 0#4 ++ 0#4 ++ 0#4) (BitVec.and_allOnes (x := n1))

theorem formatXyn_and_F00F (n1 : Nibble) (x y : Reg) (n4 : Nibble) :
    formatXyn n1 x y n4 &&& 0xF00F = formatXyn n1 0 0 n4 := by
  change (n1 ++ (BitVec.ofFin x : Nibble) ++ (BitVec.ofFin y : Nibble) ++ n4) &&&
    (0xF#4 ++ 0#4 ++ 0#4 ++ 0xF#4) = n1 ++ 0#4 ++ 0#4 ++ n4
  rw [BitVec.and_append, BitVec.and_append, BitVec.and_append, BitVec.and_zero, BitVec.and_zero]
  exact congrArg₂ (fun a b : Nibble => a ++ 0#4 ++ 0#4 ++ b) (BitVec.and_allOnes (x := n1))
    (BitVec.and_allOnes (x := n4))

/-! ### Nibbles of an encoded word -/

theorem nibbles_formatXyn (n1 : Nibble) (x y : Reg) (n4 : Nibble) :
    nibble1 (formatXyn n1 x y n4) = n1 ∧ nibble2 (formatXyn n1 x y n4) = BitVec.ofFin x ∧
      nibble3 (formatXyn n1 x y n4) = BitVec.ofFin y ∧ nibble4 (formatXyn n1 x y n4) = n4 := by
  have := n1.isLt; have := n4.isLt; have := x.isLt; have := y.isLt
  refine ⟨?_, ?_, ?_, ?_⟩ <;> apply BitVec.eq_of_toNat_eq
  · rw [toNat_nibble1, toNat_formatXyn]; omega
  · rw [toNat_nibble2, toNat_formatXyn]; change _ = x.val; omega
  · rw [toNat_nibble3, toNat_formatXyn]; change _ = y.val; omega
  · rw [toNat_nibble4, toNat_formatXyn]; omega

theorem nibbles_formatXnn (n1 : Nibble) (x : Reg) (nn : Byte) :
    nibble1 (formatXnn n1 x nn) = n1 ∧ nibble2 (formatXnn n1 x nn) = BitVec.ofFin x ∧
      immByte (nibble3 (formatXnn n1 x nn)) (nibble4 (formatXnn n1 x nn)) = nn := by
  have := n1.isLt; have := x.isLt; have := nn.isLt
  refine ⟨?_, ?_, ?_⟩ <;> apply BitVec.eq_of_toNat_eq
  · rw [toNat_nibble1, toNat_formatXnn]; omega
  · rw [toNat_nibble2, toNat_formatXnn]; change _ = x.val; omega
  · rw [toNat_immByte, toNat_nibble3, toNat_nibble4, toNat_formatXnn]; omega

theorem nibbles_formatNnn (n1 : Nibble) (nnn : BitVec 12) :
    nibble1 (formatNnn n1 nnn) = n1 ∧ immAddr (nibble2 (formatNnn n1 nnn))
      (nibble3 (formatNnn n1 nnn)) (nibble4 (formatNnn n1 nnn)) = nnn := by
  have := n1.isLt; have := nnn.isLt
  refine ⟨?_, ?_⟩ <;> apply BitVec.eq_of_toNat_eq
  · rw [toNat_nibble1, toNat_formatNnn]; omega
  · rw [toNat_immAddr, toNat_nibble2, toNat_nibble3, toNat_nibble4, toNat_formatNnn]; omega

/-! ### What the decoder answers -/

/-- A decoded word is one whose nibbles match a row. -/
theorem decodeWord_eq_ok {w : Word} {i : Instr} :
    decodeWord w = .ok i ↔
      decodeNibbles (nibble1 w) (nibble2 w) (nibble3 w) (nibble4 w) = some i := by
  unfold decodeWord
  split <;> simp_all

/-- The decoder refuses a word under its own name and in no other way (30_encoding.md R86). -/
theorem decodeWord_eq_error {w : Word} {e : DecodeError} :
    decodeWord w = .error e ↔
      decodeNibbles (nibble1 w) (nibble2 w) (nibble3 w) (nibble4 w) = none ∧
        e = .illegalInstruction w := by
  unfold decodeWord
  cases decodeNibbles (nibble1 w) (nibble2 w) (nibble3 w) (nibble4 w) <;> simp [eq_comm]

/-- The ROM images reset accepts (70_reset_and_hazards.md R230). -/
theorem romFits_iff (rom : List Byte) : romFits rom = true ↔ rom.length ≤ 3584 :=
  decide_eq_true_iff

end Sys2Proof
end

