-- ==== Sys2Proof/Laws/State.lean ====
section
/-! SUPPORT. One lemma per field per update of State, and what each read sees of an update to another
field, so that no proof unfolds a record update. -/

namespace Sys2Proof.Machine.State

variable (s : State)

@[simp] theorem writeV_v (x : Reg) (b : Byte) : (s.writeV x b).v = s.v.set x b := rfl
@[simp] theorem writeV_i (x : Reg) (b : Byte) : (s.writeV x b).i = s.i := rfl
@[simp] theorem writeV_pc (x : Reg) (b : Byte) : (s.writeV x b).pc = s.pc := rfl
@[simp] theorem writeV_sp (x : Reg) (b : Byte) : (s.writeV x b).sp = s.sp := rfl
@[simp] theorem writeV_stack (x : Reg) (b : Byte) : (s.writeV x b).stack = s.stack := rfl
@[simp] theorem writeV_dt (x : Reg) (b : Byte) : (s.writeV x b).dt = s.dt := rfl
@[simp] theorem writeV_st (x : Reg) (b : Byte) : (s.writeV x b).st = s.st := rfl
@[simp] theorem writeV_mem (x : Reg) (b : Byte) : (s.writeV x b).mem = s.mem := rfl
@[simp] theorem writeV_disp (x : Reg) (b : Byte) : (s.writeV x b).disp = s.disp := rfl
@[simp] theorem writeV_fault (x : Reg) (b : Byte) : (s.writeV x b).fault = s.fault := rfl
@[simp] theorem writeV_key (x : Reg) (b : Byte) : (s.writeV x b).key = s.key := rfl
@[simp] theorem writeV_draws (x : Reg) (b : Byte) : (s.writeV x b).draws = s.draws := rfl
@[simp] theorem readMem_writeV (x : Reg) (b : Byte) (n : Nat) : (s.writeV x b).readMem n = s.readMem n := rfl
@[simp] theorem readDisp_writeV (x : Reg) (b : Byte) (n : Nat) : (s.writeV x b).readDisp n = s.readDisp n := rfl
@[simp] theorem readStack_writeV (x : Reg) (b : Byte) (n : Nat) : (s.writeV x b).readStack n = s.readStack n := rfl
@[simp] theorem rand_writeV (x : Reg) (b : Byte) : (s.writeV x b).rand = s.rand := rfl

@[simp] theorem setI_v (w : Word) : (s.setI w).v = s.v := rfl
@[simp] theorem setI_i (w : Word) : (s.setI w).i = w := rfl
@[simp] theorem setI_pc (w : Word) : (s.setI w).pc = s.pc := rfl
@[simp] theorem setI_sp (w : Word) : (s.setI w).sp = s.sp := rfl
@[simp] theorem setI_stack (w : Word) : (s.setI w).stack = s.stack := rfl
@[simp] theorem setI_dt (w : Word) : (s.setI w).dt = s.dt := rfl
@[simp] theorem setI_st (w : Word) : (s.setI w).st = s.st := rfl
@[simp] theorem setI_mem (w : Word) : (s.setI w).mem = s.mem := rfl
@[simp] theorem setI_disp (w : Word) : (s.setI w).disp = s.disp := rfl
@[simp] theorem setI_fault (w : Word) : (s.setI w).fault = s.fault := rfl
@[simp] theorem setI_key (w : Word) : (s.setI w).key = s.key := rfl
@[simp] theorem setI_draws (w : Word) : (s.setI w).draws = s.draws := rfl
@[simp] theorem readV_setI (w : Word) (y : Reg) : (s.setI w).readV y = s.readV y := rfl
@[simp] theorem readMem_setI (w : Word) (n : Nat) : (s.setI w).readMem n = s.readMem n := rfl
@[simp] theorem readDisp_setI (w : Word) (n : Nat) : (s.setI w).readDisp n = s.readDisp n := rfl
@[simp] theorem readStack_setI (w : Word) (n : Nat) : (s.setI w).readStack n = s.readStack n := rfl
@[simp] theorem rand_setI (w : Word) : (s.setI w).rand = s.rand := rfl

@[simp] theorem setPc_v (w : Word) : (s.setPc w).v = s.v := rfl
@[simp] theorem setPc_i (w : Word) : (s.setPc w).i = s.i := rfl
@[simp] theorem setPc_pc (w : Word) : (s.setPc w).pc = w := rfl
@[simp] theorem setPc_sp (w : Word) : (s.setPc w).sp = s.sp := rfl
@[simp] theorem setPc_stack (w : Word) : (s.setPc w).stack = s.stack := rfl
@[simp] theorem setPc_dt (w : Word) : (s.setPc w).dt = s.dt := rfl
@[simp] theorem setPc_st (w : Word) : (s.setPc w).st = s.st := rfl
@[simp] theorem setPc_mem (w : Word) : (s.setPc w).mem = s.mem := rfl
@[simp] theorem setPc_disp (w : Word) : (s.setPc w).disp = s.disp := rfl
@[simp] theorem setPc_fault (w : Word) : (s.setPc w).fault = s.fault := rfl
@[simp] theorem setPc_key (w : Word) : (s.setPc w).key = s.key := rfl
@[simp] theorem setPc_draws (w : Word) : (s.setPc w).draws = s.draws := rfl
@[simp] theorem readV_setPc (w : Word) (y : Reg) : (s.setPc w).readV y = s.readV y := rfl
@[simp] theorem readMem_setPc (w : Word) (n : Nat) : (s.setPc w).readMem n = s.readMem n := rfl
@[simp] theorem readDisp_setPc (w : Word) (n : Nat) : (s.setPc w).readDisp n = s.readDisp n := rfl
@[simp] theorem readStack_setPc (w : Word) (n : Nat) : (s.setPc w).readStack n = s.readStack n := rfl
@[simp] theorem rand_setPc (w : Word) : (s.setPc w).rand = s.rand := rfl

@[simp] theorem setSp_v (b : Byte) : (s.setSp b).v = s.v := rfl
@[simp] theorem setSp_i (b : Byte) : (s.setSp b).i = s.i := rfl
@[simp] theorem setSp_pc (b : Byte) : (s.setSp b).pc = s.pc := rfl
@[simp] theorem setSp_sp (b : Byte) : (s.setSp b).sp = b := rfl
@[simp] theorem setSp_stack (b : Byte) : (s.setSp b).stack = s.stack := rfl
@[simp] theorem setSp_dt (b : Byte) : (s.setSp b).dt = s.dt := rfl
@[simp] theorem setSp_st (b : Byte) : (s.setSp b).st = s.st := rfl
@[simp] theorem setSp_mem (b : Byte) : (s.setSp b).mem = s.mem := rfl
@[simp] theorem setSp_disp (b : Byte) : (s.setSp b).disp = s.disp := rfl
@[simp] theorem setSp_fault (b : Byte) : (s.setSp b).fault = s.fault := rfl
@[simp] theorem setSp_key (b : Byte) : (s.setSp b).key = s.key := rfl
@[simp] theorem setSp_draws (b : Byte) : (s.setSp b).draws = s.draws := rfl
@[simp] theorem readV_setSp (b : Byte) (y : Reg) : (s.setSp b).readV y = s.readV y := rfl
@[simp] theorem readMem_setSp (b : Byte) (n : Nat) : (s.setSp b).readMem n = s.readMem n := rfl
@[simp] theorem readDisp_setSp (b : Byte) (n : Nat) : (s.setSp b).readDisp n = s.readDisp n := rfl
@[simp] theorem readStack_setSp (b : Byte) (n : Nat) : (s.setSp b).readStack n = s.readStack n := rfl
@[simp] theorem rand_setSp (b : Byte) : (s.setSp b).rand = s.rand := rfl

@[simp] theorem setDt_v (b : Byte) : (s.setDt b).v = s.v := rfl
@[simp] theorem setDt_i (b : Byte) : (s.setDt b).i = s.i := rfl
@[simp] theorem setDt_pc (b : Byte) : (s.setDt b).pc = s.pc := rfl
@[simp] theorem setDt_sp (b : Byte) : (s.setDt b).sp = s.sp := rfl
@[simp] theorem setDt_stack (b : Byte) : (s.setDt b).stack = s.stack := rfl
@[simp] theorem setDt_dt (b : Byte) : (s.setDt b).dt = b := rfl
@[simp] theorem setDt_st (b : Byte) : (s.setDt b).st = s.st := rfl
@[simp] theorem setDt_mem (b : Byte) : (s.setDt b).mem = s.mem := rfl
@[simp] theorem setDt_disp (b : Byte) : (s.setDt b).disp = s.disp := rfl
@[simp] theorem setDt_fault (b : Byte) : (s.setDt b).fault = s.fault := rfl
@[simp] theorem setDt_key (b : Byte) : (s.setDt b).key = s.key := rfl
@[simp] theorem setDt_draws (b : Byte) : (s.setDt b).draws = s.draws := rfl
@[simp] theorem readV_setDt (b : Byte) (y : Reg) : (s.setDt b).readV y = s.readV y := rfl
@[simp] theorem readMem_setDt (b : Byte) (n : Nat) : (s.setDt b).readMem n = s.readMem n := rfl
@[simp] theorem readDisp_setDt (b : Byte) (n : Nat) : (s.setDt b).readDisp n = s.readDisp n := rfl
@[simp] theorem readStack_setDt (b : Byte) (n : Nat) : (s.setDt b).readStack n = s.readStack n := rfl
@[simp] theorem rand_setDt (b : Byte) : (s.setDt b).rand = s.rand := rfl

@[simp] theorem setSt_v (b : Byte) : (s.setSt b).v = s.v := rfl
@[simp] theorem setSt_i (b : Byte) : (s.setSt b).i = s.i := rfl
@[simp] theorem setSt_pc (b : Byte) : (s.setSt b).pc = s.pc := rfl
@[simp] theorem setSt_sp (b : Byte) : (s.setSt b).sp = s.sp := rfl
@[simp] theorem setSt_stack (b : Byte) : (s.setSt b).stack = s.stack := rfl
@[simp] theorem setSt_dt (b : Byte) : (s.setSt b).dt = s.dt := rfl
@[simp] theorem setSt_st (b : Byte) : (s.setSt b).st = b := rfl
@[simp] theorem setSt_mem (b : Byte) : (s.setSt b).mem = s.mem := rfl
@[simp] theorem setSt_disp (b : Byte) : (s.setSt b).disp = s.disp := rfl
@[simp] theorem setSt_fault (b : Byte) : (s.setSt b).fault = s.fault := rfl
@[simp] theorem setSt_key (b : Byte) : (s.setSt b).key = s.key := rfl
@[simp] theorem setSt_draws (b : Byte) : (s.setSt b).draws = s.draws := rfl
@[simp] theorem readV_setSt (b : Byte) (y : Reg) : (s.setSt b).readV y = s.readV y := rfl
@[simp] theorem readMem_setSt (b : Byte) (n : Nat) : (s.setSt b).readMem n = s.readMem n := rfl
@[simp] theorem readDisp_setSt (b : Byte) (n : Nat) : (s.setSt b).readDisp n = s.readDisp n := rfl
@[simp] theorem readStack_setSt (b : Byte) (n : Nat) : (s.setSt b).readStack n = s.readStack n := rfl
@[simp] theorem rand_setSt (b : Byte) : (s.setSt b).rand = s.rand := rfl

@[simp] theorem writeStack_v (k : Nat) (w : Word) : (s.writeStack k w).v = s.v := rfl
@[simp] theorem writeStack_i (k : Nat) (w : Word) : (s.writeStack k w).i = s.i := rfl
@[simp] theorem writeStack_pc (k : Nat) (w : Word) : (s.writeStack k w).pc = s.pc := rfl
@[simp] theorem writeStack_sp (k : Nat) (w : Word) : (s.writeStack k w).sp = s.sp := rfl
@[simp] theorem writeStack_stack (k : Nat) (w : Word) : (s.writeStack k w).stack = s.stack.setIfInBounds k w := rfl
@[simp] theorem writeStack_dt (k : Nat) (w : Word) : (s.writeStack k w).dt = s.dt := rfl
@[simp] theorem writeStack_st (k : Nat) (w : Word) : (s.writeStack k w).st = s.st := rfl
@[simp] theorem writeStack_mem (k : Nat) (w : Word) : (s.writeStack k w).mem = s.mem := rfl
@[simp] theorem writeStack_disp (k : Nat) (w : Word) : (s.writeStack k w).disp = s.disp := rfl
@[simp] theorem writeStack_fault (k : Nat) (w : Word) : (s.writeStack k w).fault = s.fault := rfl
@[simp] theorem writeStack_key (k : Nat) (w : Word) : (s.writeStack k w).key = s.key := rfl
@[simp] theorem writeStack_draws (k : Nat) (w : Word) : (s.writeStack k w).draws = s.draws := rfl
@[simp] theorem readV_writeStack (k : Nat) (w : Word) (y : Reg) : (s.writeStack k w).readV y = s.readV y := rfl
@[simp] theorem readMem_writeStack (k : Nat) (w : Word) (n : Nat) : (s.writeStack k w).readMem n = s.readMem n := rfl
@[simp] theorem readDisp_writeStack (k : Nat) (w : Word) (n : Nat) : (s.writeStack k w).readDisp n = s.readDisp n := rfl
@[simp] theorem rand_writeStack (k : Nat) (w : Word) : (s.writeStack k w).rand = s.rand := rfl

@[simp] theorem writeMem_v (a : Nat) (us : List Byte) : (s.writeMem a us).v = s.v := rfl
@[simp] theorem writeMem_i (a : Nat) (us : List Byte) : (s.writeMem a us).i = s.i := rfl
@[simp] theorem writeMem_pc (a : Nat) (us : List Byte) : (s.writeMem a us).pc = s.pc := rfl
@[simp] theorem writeMem_sp (a : Nat) (us : List Byte) : (s.writeMem a us).sp = s.sp := rfl
@[simp] theorem writeMem_stack (a : Nat) (us : List Byte) : (s.writeMem a us).stack = s.stack := rfl
@[simp] theorem writeMem_dt (a : Nat) (us : List Byte) : (s.writeMem a us).dt = s.dt := rfl
@[simp] theorem writeMem_st (a : Nat) (us : List Byte) : (s.writeMem a us).st = s.st := rfl
@[simp] theorem writeMem_mem (a : Nat) (us : List Byte) : (s.writeMem a us).mem = s.mem.writeBytes a us := rfl
@[simp] theorem writeMem_disp (a : Nat) (us : List Byte) : (s.writeMem a us).disp = s.disp := rfl
@[simp] theorem writeMem_fault (a : Nat) (us : List Byte) : (s.writeMem a us).fault = s.fault := rfl
@[simp] theorem writeMem_key (a : Nat) (us : List Byte) : (s.writeMem a us).key = s.key := rfl
@[simp] theorem writeMem_draws (a : Nat) (us : List Byte) : (s.writeMem a us).draws = s.draws := rfl
@[simp] theorem readV_writeMem (a : Nat) (us : List Byte) (y : Reg) : (s.writeMem a us).readV y = s.readV y := rfl
@[simp] theorem readDisp_writeMem (a : Nat) (us : List Byte) (n : Nat) : (s.writeMem a us).readDisp n = s.readDisp n := rfl
@[simp] theorem readStack_writeMem (a : Nat) (us : List Byte) (n : Nat) : (s.writeMem a us).readStack n = s.readStack n := rfl
@[simp] theorem rand_writeMem (a : Nat) (us : List Byte) : (s.writeMem a us).rand = s.rand := rfl

@[simp] theorem writeDisp_v (k : Nat) (b : Byte) : (s.writeDisp k b).v = s.v := rfl
@[simp] theorem writeDisp_i (k : Nat) (b : Byte) : (s.writeDisp k b).i = s.i := rfl
@[simp] theorem writeDisp_pc (k : Nat) (b : Byte) : (s.writeDisp k b).pc = s.pc := rfl
@[simp] theorem writeDisp_sp (k : Nat) (b : Byte) : (s.writeDisp k b).sp = s.sp := rfl
@[simp] theorem writeDisp_stack (k : Nat) (b : Byte) : (s.writeDisp k b).stack = s.stack := rfl
@[simp] theorem writeDisp_dt (k : Nat) (b : Byte) : (s.writeDisp k b).dt = s.dt := rfl
@[simp] theorem writeDisp_st (k : Nat) (b : Byte) : (s.writeDisp k b).st = s.st := rfl
@[simp] theorem writeDisp_mem (k : Nat) (b : Byte) : (s.writeDisp k b).mem = s.mem := rfl
@[simp] theorem writeDisp_disp (k : Nat) (b : Byte) : (s.writeDisp k b).disp = s.disp.setIfInBounds k b := rfl
@[simp] theorem writeDisp_fault (k : Nat) (b : Byte) : (s.writeDisp k b).fault = s.fault := rfl
@[simp] theorem writeDisp_key (k : Nat) (b : Byte) : (s.writeDisp k b).key = s.key := rfl
@[simp] theorem writeDisp_draws (k : Nat) (b : Byte) : (s.writeDisp k b).draws = s.draws := rfl
@[simp] theorem readV_writeDisp (k : Nat) (b : Byte) (y : Reg) : (s.writeDisp k b).readV y = s.readV y := rfl
@[simp] theorem readMem_writeDisp (k : Nat) (b : Byte) (n : Nat) : (s.writeDisp k b).readMem n = s.readMem n := rfl
@[simp] theorem readStack_writeDisp (k : Nat) (b : Byte) (n : Nat) : (s.writeDisp k b).readStack n = s.readStack n := rfl
@[simp] theorem rand_writeDisp (k : Nat) (b : Byte) : (s.writeDisp k b).rand = s.rand := rfl

@[simp] theorem clearDisp_v : (s.clearDisp).v = s.v := rfl
@[simp] theorem clearDisp_i : (s.clearDisp).i = s.i := rfl
@[simp] theorem clearDisp_pc : (s.clearDisp).pc = s.pc := rfl
@[simp] theorem clearDisp_sp : (s.clearDisp).sp = s.sp := rfl
@[simp] theorem clearDisp_stack : (s.clearDisp).stack = s.stack := rfl
@[simp] theorem clearDisp_dt : (s.clearDisp).dt = s.dt := rfl
@[simp] theorem clearDisp_st : (s.clearDisp).st = s.st := rfl
@[simp] theorem clearDisp_mem : (s.clearDisp).mem = s.mem := rfl
@[simp] theorem clearDisp_disp : (s.clearDisp).disp = Vector.replicate 256 0 := rfl
@[simp] theorem clearDisp_fault : (s.clearDisp).fault = s.fault := rfl
@[simp] theorem clearDisp_key : (s.clearDisp).key = s.key := rfl
@[simp] theorem clearDisp_draws : (s.clearDisp).draws = s.draws := rfl
@[simp] theorem readV_clearDisp (y : Reg) : (s.clearDisp).readV y = s.readV y := rfl
@[simp] theorem readMem_clearDisp (n : Nat) : (s.clearDisp).readMem n = s.readMem n := rfl
@[simp] theorem readStack_clearDisp (n : Nat) : (s.clearDisp).readStack n = s.readStack n := rfl
@[simp] theorem rand_clearDisp : (s.clearDisp).rand = s.rand := rfl

@[simp] theorem countDraw_v : (s.countDraw).v = s.v := rfl
@[simp] theorem countDraw_i : (s.countDraw).i = s.i := rfl
@[simp] theorem countDraw_pc : (s.countDraw).pc = s.pc := rfl
@[simp] theorem countDraw_sp : (s.countDraw).sp = s.sp := rfl
@[simp] theorem countDraw_stack : (s.countDraw).stack = s.stack := rfl
@[simp] theorem countDraw_dt : (s.countDraw).dt = s.dt := rfl
@[simp] theorem countDraw_st : (s.countDraw).st = s.st := rfl
@[simp] theorem countDraw_mem : (s.countDraw).mem = s.mem := rfl
@[simp] theorem countDraw_disp : (s.countDraw).disp = s.disp := rfl
@[simp] theorem countDraw_fault : (s.countDraw).fault = s.fault := rfl
@[simp] theorem countDraw_key : (s.countDraw).key = s.key := rfl
@[simp] theorem countDraw_draws : (s.countDraw).draws = s.draws + 1 := rfl
@[simp] theorem readV_countDraw (y : Reg) : (s.countDraw).readV y = s.readV y := rfl
@[simp] theorem readMem_countDraw (n : Nat) : (s.countDraw).readMem n = s.readMem n := rfl
@[simp] theorem readDisp_countDraw (n : Nat) : (s.countDraw).readDisp n = s.readDisp n := rfl
@[simp] theorem readStack_countDraw (n : Nat) : (s.countDraw).readStack n = s.readStack n := rfl

@[simp] theorem setKey_v (k : Byte) : (s.setKey k).v = s.v := rfl
@[simp] theorem setKey_i (k : Byte) : (s.setKey k).i = s.i := rfl
@[simp] theorem setKey_pc (k : Byte) : (s.setKey k).pc = s.pc := rfl
@[simp] theorem setKey_sp (k : Byte) : (s.setKey k).sp = s.sp := rfl
@[simp] theorem setKey_stack (k : Byte) : (s.setKey k).stack = s.stack := rfl
@[simp] theorem setKey_dt (k : Byte) : (s.setKey k).dt = s.dt := rfl
@[simp] theorem setKey_st (k : Byte) : (s.setKey k).st = s.st := rfl
@[simp] theorem setKey_mem (k : Byte) : (s.setKey k).mem = s.mem := rfl
@[simp] theorem setKey_disp (k : Byte) : (s.setKey k).disp = s.disp := rfl
@[simp] theorem setKey_fault (k : Byte) : (s.setKey k).fault = s.fault := rfl
@[simp] theorem setKey_key (k : Byte) : (s.setKey k).key = k := rfl
@[simp] theorem setKey_draws (k : Byte) : (s.setKey k).draws = s.draws := rfl
@[simp] theorem readV_setKey (k : Byte) (y : Reg) : (s.setKey k).readV y = s.readV y := rfl
@[simp] theorem readMem_setKey (k : Byte) (n : Nat) : (s.setKey k).readMem n = s.readMem n := rfl
@[simp] theorem readDisp_setKey (k : Byte) (n : Nat) : (s.setKey k).readDisp n = s.readDisp n := rfl
@[simp] theorem readStack_setKey (k : Byte) (n : Nat) : (s.setKey k).readStack n = s.readStack n := rfl
@[simp] theorem rand_setKey (k : Byte) : (s.setKey k).rand = s.rand := rfl

@[simp] theorem raise_v (c : FaultCause) (w : Word) (n : Nat) : (s.raise c w n).v = s.v := rfl
@[simp] theorem raise_i (c : FaultCause) (w : Word) (n : Nat) : (s.raise c w n).i = s.i := rfl
@[simp] theorem raise_pc (c : FaultCause) (w : Word) (n : Nat) : (s.raise c w n).pc = s.pc := rfl
@[simp] theorem raise_sp (c : FaultCause) (w : Word) (n : Nat) : (s.raise c w n).sp = s.sp := rfl
@[simp] theorem raise_stack (c : FaultCause) (w : Word) (n : Nat) : (s.raise c w n).stack = s.stack := rfl
@[simp] theorem raise_dt (c : FaultCause) (w : Word) (n : Nat) : (s.raise c w n).dt = s.dt := rfl
@[simp] theorem raise_st (c : FaultCause) (w : Word) (n : Nat) : (s.raise c w n).st = s.st := rfl
@[simp] theorem raise_mem (c : FaultCause) (w : Word) (n : Nat) : (s.raise c w n).mem = s.mem := rfl
@[simp] theorem raise_disp (c : FaultCause) (w : Word) (n : Nat) : (s.raise c w n).disp = s.disp := rfl
@[simp] theorem raise_fault (c : FaultCause) (w : Word) (n : Nat) : (s.raise c w n).fault = some { cause := c, pc := s.pc, word := w, info := n } := rfl
@[simp] theorem raise_key (c : FaultCause) (w : Word) (n : Nat) : (s.raise c w n).key = s.key := rfl
@[simp] theorem raise_draws (c : FaultCause) (w : Word) (n : Nat) : (s.raise c w n).draws = s.draws := rfl
@[simp] theorem readV_raise (c : FaultCause) (w : Word) (m : Nat) (y : Reg) : (s.raise c w m).readV y = s.readV y := rfl
@[simp] theorem readMem_raise (c : FaultCause) (w : Word) (m : Nat) (n : Nat) : (s.raise c w m).readMem n = s.readMem n := rfl
@[simp] theorem readDisp_raise (c : FaultCause) (w : Word) (m : Nat) (n : Nat) : (s.raise c w m).readDisp n = s.readDisp n := rfl
@[simp] theorem readStack_raise (c : FaultCause) (w : Word) (m : Nat) (n : Nat) : (s.raise c w m).readStack n = s.readStack n := rfl
@[simp] theorem rand_raise (c : FaultCause) (w : Word) (m : Nat) : (s.raise c w m).rand = s.rand := rfl

@[simp] theorem advance_v : (s.advance).v = s.v := rfl
@[simp] theorem advance_i : (s.advance).i = s.i := rfl
@[simp] theorem advance_pc : (s.advance).pc = s.pc + 2 := rfl
@[simp] theorem advance_sp : (s.advance).sp = s.sp := rfl
@[simp] theorem advance_stack : (s.advance).stack = s.stack := rfl
@[simp] theorem advance_dt : (s.advance).dt = s.dt := rfl
@[simp] theorem advance_st : (s.advance).st = s.st := rfl
@[simp] theorem advance_mem : (s.advance).mem = s.mem := rfl
@[simp] theorem advance_disp : (s.advance).disp = s.disp := rfl
@[simp] theorem advance_fault : (s.advance).fault = s.fault := rfl
@[simp] theorem advance_key : (s.advance).key = s.key := rfl
@[simp] theorem advance_draws : (s.advance).draws = s.draws := rfl
@[simp] theorem readV_advance (y : Reg) : (s.advance).readV y = s.readV y := rfl
@[simp] theorem readMem_advance (n : Nat) : (s.advance).readMem n = s.readMem n := rfl
@[simp] theorem readDisp_advance (n : Nat) : (s.advance).readDisp n = s.readDisp n := rfl
@[simp] theorem readStack_advance (n : Nat) : (s.advance).readStack n = s.readStack n := rfl
@[simp] theorem rand_advance : (s.advance).rand = s.rand := rfl

@[simp] theorem skipIf_v (c : Bool) : (s.skipIf c).v = s.v := rfl
@[simp] theorem skipIf_i (c : Bool) : (s.skipIf c).i = s.i := rfl
@[simp] theorem skipIf_pc (c : Bool) : (s.skipIf c).pc = if c then s.pc + 4 else s.pc + 2 := rfl
@[simp] theorem skipIf_sp (c : Bool) : (s.skipIf c).sp = s.sp := rfl
@[simp] theorem skipIf_stack (c : Bool) : (s.skipIf c).stack = s.stack := rfl
@[simp] theorem skipIf_dt (c : Bool) : (s.skipIf c).dt = s.dt := rfl
@[simp] theorem skipIf_st (c : Bool) : (s.skipIf c).st = s.st := rfl
@[simp] theorem skipIf_mem (c : Bool) : (s.skipIf c).mem = s.mem := rfl
@[simp] theorem skipIf_disp (c : Bool) : (s.skipIf c).disp = s.disp := rfl
@[simp] theorem skipIf_fault (c : Bool) : (s.skipIf c).fault = s.fault := rfl
@[simp] theorem skipIf_key (c : Bool) : (s.skipIf c).key = s.key := rfl
@[simp] theorem skipIf_draws (c : Bool) : (s.skipIf c).draws = s.draws := rfl
@[simp] theorem readV_skipIf (c : Bool) (y : Reg) : (s.skipIf c).readV y = s.readV y := rfl
@[simp] theorem readMem_skipIf (c : Bool) (n : Nat) : (s.skipIf c).readMem n = s.readMem n := rfl
@[simp] theorem readDisp_skipIf (c : Bool) (n : Nat) : (s.skipIf c).readDisp n = s.readDisp n := rfl
@[simp] theorem readStack_skipIf (c : Bool) (n : Nat) : (s.skipIf c).readStack n = s.readStack n := rfl
@[simp] theorem rand_skipIf (c : Bool) : (s.skipIf c).rand = s.rand := rfl

@[simp] theorem tick_v : (s.tick).v = s.v := rfl
@[simp] theorem tick_i : (s.tick).i = s.i := rfl
@[simp] theorem tick_pc : (s.tick).pc = s.pc := rfl
@[simp] theorem tick_sp : (s.tick).sp = s.sp := rfl
@[simp] theorem tick_stack : (s.tick).stack = s.stack := rfl
@[simp] theorem tick_dt : (s.tick).dt = countDown s.dt := rfl
@[simp] theorem tick_st : (s.tick).st = countDown s.st := rfl
@[simp] theorem tick_mem : (s.tick).mem = s.mem := rfl
@[simp] theorem tick_disp : (s.tick).disp = s.disp := rfl
@[simp] theorem tick_fault : (s.tick).fault = s.fault := rfl
@[simp] theorem tick_key : (s.tick).key = s.key := rfl
@[simp] theorem tick_draws : (s.tick).draws = s.draws := rfl
@[simp] theorem readV_tick (y : Reg) : (s.tick).readV y = s.readV y := rfl
@[simp] theorem readMem_tick (n : Nat) : (s.tick).readMem n = s.readMem n := rfl
@[simp] theorem readDisp_tick (n : Nat) : (s.tick).readDisp n = s.readDisp n := rfl
@[simp] theorem readStack_tick (n : Nat) : (s.tick).readStack n = s.readStack n := rfl
@[simp] theorem rand_tick : (s.tick).rand = s.rand := rfl

end Sys2Proof.Machine.State
end

