-- ==== Sys2Proof/Laws/Memory.lean ====
section
/-! SUPPORT. Main memory: a read after a write, and that every write keeps the canonical form. -/

namespace Sys2Proof.Machine.Memory

/-- Below its lower bound a canonical memory reads as the reset contents. -/
theorem read_below {m : Memory} {lo a : Nat} (hm : wfFrom lo m = true) (ha : a < lo) :
    read m a = initByte a := by
  induction m generalizing lo with
  | nil => rfl
  | cons c m ih =>
    obtain ⟨b, u⟩ := c
    simp only [wfFrom, Bool.and_eq_true, decide_eq_true_eq] at hm
    have hne : a ≠ b := by omega
    simp only [read, hne, if_false]
    exact ih hm.2 (by omega)

/-- A lower bound may be lowered. -/
theorem wfFrom_anti {m : Memory} {lo lo' : Nat} (hm : wfFrom lo m = true) (h : lo' ≤ lo) :
    wfFrom lo' m = true := by
  cases m with
  | nil => rfl
  | cons c m =>
    obtain ⟨b, u⟩ := c
    simp only [wfFrom, Bool.and_eq_true, decide_eq_true_eq] at hm ⊢
    exact ⟨⟨⟨by omega, hm.1.1.2⟩, hm.1.2⟩, hm.2⟩

/-- A write at an existing address keeps the canonical form. -/
theorem wfFrom_write {m : Memory} {lo a : Nat} (u : Byte) (hm : wfFrom lo m = true) (hlo : lo ≤ a)
    (ha : a < Config.memSize) : wfFrom lo (write m a u) = true := by
  induction m generalizing lo with
  | nil =>
    by_cases hu : u = initByte a
    · simp [write, hu, wfFrom]
    · simp [write, hu, wfFrom, hlo, ha]
  | cons c m ih =>
    obtain ⟨b, w⟩ := c
    have hb := hm
    simp only [wfFrom, Bool.and_eq_true, decide_eq_true_eq, bne_iff_ne] at hb
    obtain ⟨⟨⟨h1, h2⟩, h3⟩, h4⟩ := hb
    simp only [write]
    by_cases hlt : a < b
    · by_cases hu : u = initByte a
      · simp [hlt, hu, hm]
      · rw [if_pos hlt, if_neg hu]
        simp only [wfFrom, Bool.and_eq_true, decide_eq_true_eq, bne_iff_ne]
        exact ⟨⟨⟨hlo, ha⟩, hu⟩, ⟨⟨⟨by omega, h2⟩, h3⟩, h4⟩⟩
    · by_cases heq : a = b
      · subst heq
        by_cases hu : u = initByte a
        · simp only [Nat.lt_irrefl, if_false, if_true, hu]
          exact wfFrom_anti h4 (by omega)
        · simp only [Nat.lt_irrefl, if_false, if_true, hu, wfFrom, Bool.and_eq_true,
            decide_eq_true_eq, bne_iff_ne]
          exact ⟨⟨⟨hlo, ha⟩, hu⟩, h4⟩
      · simp only [hlt, heq, if_false, wfFrom, Bool.and_eq_true, decide_eq_true_eq, bne_iff_ne]
        exact ⟨⟨⟨h1, h2⟩, h3⟩, ih h4 (by omega)⟩

/-- A read after a write: the byte written at its own address, everything else as before. -/
theorem read_write {m : Memory} {lo : Nat} (hm : wfFrom lo m = true) (a b : Nat) (u : Byte) :
    read (write m a u) b = if b = a then u else read m b := by
  induction m generalizing lo with
  | nil =>
    by_cases hu : u = initByte a <;> by_cases hb : b = a <;> simp [write, read, hu, hb]
  | cons c m ih =>
    obtain ⟨d, w⟩ := c
    simp only [wfFrom, Bool.and_eq_true, decide_eq_true_eq] at hm
    obtain ⟨-, h4⟩ := hm
    simp only [write]
    by_cases hlt : a < d
    · have hne : a ≠ d := by omega
      have hbelow : read m a = initByte a := read_below h4 (by omega)
      by_cases hu : u = initByte a <;> by_cases hb : b = a <;>
        simp [hlt, hu, hb, read, hne, hbelow]
    · by_cases heq : a = d
      · subst heq
        have hbelow : read m a = initByte a := read_below h4 (by omega)
        by_cases hu : u = initByte a <;> by_cases hb : b = a <;> simp [hu, hb, read, hbelow]
      · by_cases hb : b = d
        · subst hb
          have hne : b ≠ a := Ne.symm heq
          simp [hlt, heq, read, hne]
        · simp [hlt, heq, read, hb, ih h4]

/-- A write keeps the canonical form of the whole memory. -/
theorem wf_write {m : Memory} {a : Nat} (u : Byte) (hm : wf m = true) (ha : a < Config.memSize) :
    wf (write m a u) = true :=
  wfFrom_write u hm (Nat.zero_le a) ha

/-- Consecutive writes keep the canonical form. -/
theorem wf_writeBytes {m : Memory} {a : Nat} (us : List Byte) (hm : wf m = true)
    (ha : a + us.length ≤ Config.memSize) : wf (writeBytes m a us) = true := by
  induction us generalizing m a with
  | nil => exact hm
  | cons u us ih =>
    simp only [List.length_cons] at ha
    exact ih (wf_write u hm (by omega)) (by omega)

/-- What consecutive writes at existing addresses leave at every address. -/
theorem read_writeBytes {m : Memory} {a : Nat} (us : List Byte) (hm : wf m = true)
    (ha : a + us.length ≤ Config.memSize) (b : Nat) :
    read (writeBytes m a us) b =
      if a ≤ b ∧ b < a + us.length then us.getD (b - a) 0 else read m b := by
  induction us generalizing m a with
  | nil => simp [writeBytes]
  | cons u us ih =>
    simp only [List.length_cons] at ha
    have hm' := wf_write (a := a) u hm (by omega)
    have hn : a + 1 + us.length ≤ Config.memSize := by omega
    rw [writeBytes, ih hm' hn, read_write hm, List.length_cons]
    by_cases h1 : a + 1 ≤ b ∧ b < a + 1 + us.length
    · have hs : b - a = (b - (a + 1)) + 1 := by omega
      rw [if_pos h1, if_pos (by omega), hs, List.getD_cons_succ]
    · rw [if_neg h1]
      by_cases h2 : b = a
      · subst h2
        rw [if_pos rfl, if_pos (by omega)]
        simp
      · rw [if_neg h2, if_neg (by omega)]

/-- Reset memory is canonical. -/
theorem wf_reset : wf State.reset.mem = true := rfl

end Sys2Proof.Machine.Memory
end

