-- ==== Sys2Proof/Laws/Ops.lean ====
section
/-! SUPPORT. One lemma for each shared operation that says what it does: registers, stack, display,
the range checks, the loops of Dxyn and Fx65, and the phases of a step. -/

namespace Sys2Proof.Machine

variable (s : State)

/-! ### Registers, stack, display -/

/-- A register reads back the last value written; every other register is as before (R20). -/
theorem State.readV_writeV (x y : Reg) (b : Byte) :
    (s.writeV x b).readV y = if y = x then b else s.readV y := by
  simp only [readV, writeV, Fin.getElem_fin, Vector.getElem_set, Fin.ext_iff, eq_comm]

/-- Slots 0 to 15 exist (R25). -/
theorem State.readStack_of_le {k : Nat} (hk : k < 16) : s.readStack k = some s.stack[k] := by
  simp [readStack, hk]

/-- No slot above 15 exists (R24). -/
theorem State.readStack_of_gt {k : Nat} (hk : 15 < k) : s.readStack k = none := by
  simp [readStack]; omega

/-- A slot reads back what was written to it; every other slot is as before. -/
theorem State.readStack_writeStack {k : Nat} (hk : k < 16) (j : Nat) (w : Word) :
    (s.writeStack k w).readStack j = if j = k then some w else s.readStack j := by
  simp only [readStack, writeStack, Vector.getElem?_setIfInBounds]
  by_cases h : k = j
  · subst h; simp [hk]
  · simp [h, Ne.symm h]

/-- A display byte reads back what was written to it; every other byte is as before. -/
theorem State.readDisp_writeDisp {k : Nat} (hk : k < 256) (j : Nat) (b : Byte) :
    (s.writeDisp k b).readDisp j = if j = k then b else s.readDisp j := by
  simp only [readDisp, writeDisp, Vector.getElem?_setIfInBounds]
  by_cases h : k = j
  · subst h; simp [hk]
  · simp [h, Ne.symm h]

/-- A cleared display reads 0 everywhere (R170). -/
theorem State.readDisp_clearDisp (j : Nat) : s.clearDisp.readDisp j = 0 := by
  simp only [readDisp, clearDisp, Vector.getElem?_replicate]
  split <;> rfl

/-- The countdown on numbers: one less, floor at 0 (R106). -/
theorem toNat_countDown (b : Byte) : (countDown b).toNat = b.toNat - 1 := by
  unfold countDown
  split
  · next h => subst h; rfl
  · next h =>
    have : b.toNat ≠ 0 := fun h0 => h (BitVec.eq_of_toNat_eq h0)
    rw [BitVec.toNat_sub]
    have := b.isLt
    simp
    omega

/-! ### Range checks -/

/-- No bad address exactly when every offset is in range (R56). -/
theorem firstBadAddr_eq_none {base : Word} {ks : List Nat} :
    firstBadAddr base ks = none ↔ ∀ k ∈ ks, effAddr base k ≤ 0xFFF := by
  induction ks with
  | nil => simp [firstBadAddr]
  | cons k ks ih =>
    simp only [firstBadAddr, List.mem_cons, forall_eq_or_imp]
    split
    · simp; omega
    · rw [ih]; simp; omega

/-- The address reported is out of range and comes from one of the offsets (R204). -/
theorem firstBadAddr_eq_some {base : Word} {ks : List Nat} {ea : Nat}
    (h : firstBadAddr base ks = some ea) : 0xFFF < ea ∧ ∃ k ∈ ks, ea = effAddr base k := by
  induction ks with
  | nil => simp [firstBadAddr] at h
  | cons k ks ih =>
    simp only [firstBadAddr] at h
    split at h
    · simp only [Option.some.injEq] at h
      exact ⟨by omega, k, by simp, h.symm⟩
    · obtain ⟨h1, j, hj, h2⟩ := ih h
      exact ⟨h1, j, by simp [hj], h2⟩

/-- Over the offsets 0 to n, the lowest bad address is `max I 0x1000` (R56, R204). -/
theorem firstBadAddr_range (base : Word) (n : Nat) :
    firstBadAddr base (List.range (n + 1)) =
      if base.toNat + n ≤ 0xFFF then none else some (max base.toNat 0x1000) := by
  have key : ∀ (m k : Nat), base.toNat + k ≤ 0x1000 ∨ k = 0 →
      firstBadAddr base (List.range' k (m + 1)) =
        if base.toNat + (k + m) ≤ 0xFFF then none else some (max base.toNat 0x1000) := by
    intro m
    induction m with
    | zero =>
      intro k hk
      simp only [List.range'_succ, List.range'_zero, firstBadAddr]
      have he : effAddr base k = base.toNat + k := rfl
      by_cases hb : 0xFFF < effAddr base k
      · rw [if_pos hb, if_neg (by omega), Option.some.injEq]; omega
      · rw [if_neg hb, if_pos (by omega)]
    | succ m ih =>
      intro k hk
      rw [List.range'_succ, firstBadAddr]
      have he : effAddr base k = base.toNat + k := rfl
      by_cases hb : 0xFFF < effAddr base k
      · rw [if_pos hb, if_neg (by omega), Option.some.injEq]; omega
      · rw [if_neg hb, ih (k + 1) (by omega), Nat.add_right_comm k 1 m, Nat.add_assoc k m 1]
  have h := key n 0 (Or.inr rfl)
  rwa [Nat.zero_add, ← List.range_eq_range'] at h

/-- The two outcomes of a data access. -/
theorem withDataAccess_cases (i : Instr) (ks : List Nat) (t : State) :
    (∃ ea, firstBadAddr s.i ks = some ea ∧
        withDataAccess i ks s t = .next (s.raise .memoryAddress (encode i) ea)) ∨
      (firstBadAddr s.i ks = none ∧ withDataAccess i ks s t = .next t) := by
  unfold withDataAccess
  cases h : firstBadAddr s.i ks with
  | none => exact .inr ⟨rfl, rfl⟩
  | some ea => exact .inl ⟨ea, rfl, rfl⟩

/-- Phase A of Dxyn passes exactly when every row is in range (R171). -/
theorem drawCheck_eq_none {base : Word} {vx vy : Byte} {rs : List Nat} :
    drawCheck base vx vy rs = none ↔
      ∀ r ∈ rs, effAddr base r ≤ 0xFFF ∧ displayIndex vx vy r ≤ 255 := by
  induction rs with
  | nil => simp [drawCheck]
  | cons r rs ih =>
    simp only [drawCheck, List.mem_cons, forall_eq_or_imp]
    split
    · simp; omega
    · split
      · simp; omega
      · rw [ih]; constructor
        · exact fun h => ⟨⟨by omega, by omega⟩, h⟩
        · exact fun h => h.2

/-- What a failing check of Dxyn reports: an address above 0xFFF or an index above 255. -/
theorem drawCheck_eq_some {base : Word} {vx vy : Byte} {rs : List Nat} {c : FaultCause} {n : Nat}
    (h : drawCheck base vx vy rs = some (c, n)) :
    (c = .memoryAddress ∧ 0xFFF < n) ∨ (c = .displayIndex ∧ 255 < n) := by
  induction rs with
  | nil => simp [drawCheck] at h
  | cons r rs ih =>
    simp only [drawCheck] at h
    split at h
    · simp only [Option.some.injEq, Prod.mk.injEq] at h
      exact .inl ⟨h.1.symm, by omega⟩
    · split at h
      · simp only [Option.some.injEq, Prod.mk.injEq] at h
        exact .inr ⟨h.1.symm, by omega⟩
      · exact ih h

/-! ### Loops -/

/-- Drawing rows changes the display buffer and nothing else. -/
theorem drawRows_frame (base : Word) (vx vy : Byte) (rs : List Nat) :
    drawRows base vx vy s rs = { s with disp := (drawRows base vx vy s rs).disp } := by
  induction rs generalizing s with
  | nil => rfl
  | cons r rs ih => simp only [drawRows]; rw [ih]; rfl

/-- Two rows of one draw meet different display bytes (R171 (d)). -/
theorem displayIndex_injective {vx vy : Byte} {r q : Nat}
    (h : displayIndex vx vy r = displayIndex vx vy q) : r = q := by
  simp only [displayIndex, Config.dispStride] at h
  omega

/-- Loading registers changes the V file and nothing else. -/
theorem loadFrom_frame (base : Word) (ks : List Reg) :
    loadFrom base s ks = { s with v := (loadFrom base s ks).v } := by
  induction ks generalizing s with
  | nil => rfl
  | cons k ks ih => simp only [loadFrom]; rw [ih]; rfl

/-- What loading the listed registers leaves in every register (R194). -/
theorem readV_loadFrom (base : Word) (ks : List Reg) (y : Reg) :
    (loadFrom base s ks).readV y =
      if y ∈ ks then s.readMem (effAddr base y.val) else s.readV y := by
  induction ks generalizing s with
  | nil => simp [loadFrom]
  | cons k ks ih =>
    simp only [loadFrom, ih, State.readMem_writeV, State.readV_writeV, List.mem_cons]
    by_cases hy : y = k
    · subst hy; simp
    · simp [hy]

/-- The register range of Fx55 and Fx65 is exactly V0 to Vx (R193). -/
theorem mem_regsUpTo : ∀ x y : Reg, y ∈ regsUpTo x ↔ y ≤ x := by decide

/-- The range has `x + 1` registers. -/
theorem length_regsUpTo : ∀ x : Reg, (regsUpTo x).length = x.val + 1 := by decide

/-! ### The phases of a step -/

/-- Fetch and decode give an instruction exactly when nothing is raised (R101, R102, R107). -/
theorem State.fetchDecode_eq_run {i : Instr} :
    s.fetchDecode = .run i ↔
      s.fault = none ∧ s.pc.toNat ≤ lastFetch ∧ decodeWord s.fetchWord = .ok i := by
  unfold fetchDecode
  split
  · next h => simp [h]
  · next h =>
    split
    · next h2 => simp; omega
    · next h2 =>
      cases hd : decodeWord s.fetchWord with
      | ok j => simp_all
      | error e => simp

/-- A step is one of three: none at all, a fault of fetch or decode, or an executed instruction. -/
theorem step_cases :
    (s.fetchDecode = .idle ∧ step s = .next s) ∨
      (∃ t, s.fetchDecode = .trap t ∧ step s = .next t) ∨
      (∃ i, s.fetchDecode = .run i ∧ step s = finishStep (exec i s)) := by
  unfold step
  cases s.fetchDecode with
  | idle => exact .inl ⟨rfl, rfl⟩
  | trap t => exact .inr (.inl ⟨t, rfl, rfl⟩)
  | run i => exact .inr (.inr ⟨i, rfl, rfl⟩)

end Sys2Proof.Machine
end

