-- ==== Sys2Proof/Laws/Exec.lean ====
section
/-! SUPPORT. What executing any instruction, and running the machine, can come to: said once, so that
no statement needs every meaning unfolded. -/

namespace Sys2Proof.Machine

/-- What `exec` answers: a next state that keeps the fault record, or one in which only the record is
set, by one of the three faults of execute (60_exceptions.md R203 to R206). -/
theorem exec_cases (i : Instr) (s : State) :
    (∃ t, exec i s = .next t ∧ t.fault = s.fault) ∨
      ∃ cause info, exec i s = .next (s.raise cause (encode i) info) ∧
        ((cause = .memoryAddress ∧ 0xFFF < info) ∨ (cause = .stack ∧ 15 < info) ∨
          (cause = .displayIndex ∧ 255 < info)) := by
  have data : ∀ (ks : List Nat) (t : State), t.fault = s.fault →
      (∃ u, withDataAccess i ks s t = .next u ∧ u.fault = s.fault) ∨
        ∃ cause info, withDataAccess i ks s t = .next (s.raise cause (encode i) info) ∧
          ((cause = .memoryAddress ∧ 0xFFF < info) ∨ (cause = .stack ∧ 15 < info) ∨
            (cause = .displayIndex ∧ 255 < info)) := by
    intro ks t ht
    rcases withDataAccess_cases s i ks t with ⟨ea, h, e⟩ | ⟨-, e⟩
    · exact .inr ⟨_, _, e, .inl ⟨rfl, (firstBadAddr_eq_some h).1⟩⟩
    · exact .inl ⟨t, e, ht⟩
  cases i
  case ldB x => exact data _ _ rfl
  case storeRegs x => exact data _ _ rfl
  case loadRegs x => exact data _ _ (by rw [loadFrom_frame]; rfl)
  case drw x y n =>
    simp only [exec, execDrw]
    split
    · next c info hc =>
      refine .inr ⟨c, info, rfl, ?_⟩
      rcases drawCheck_eq_some hc with h | h
      · exact .inl h
      · exact .inr (.inr h)
    · exact .inl ⟨_, rfl, by rw [drawRows_frame]; rfl⟩
  case ret =>
    simp only [exec, execRet]
    split
    · exact .inl ⟨_, rfl, rfl⟩
    · next h =>
      refine .inr ⟨_, _, rfl, .inr (.inl ⟨rfl, ?_⟩)⟩
      by_contra hc
      rw [s.readStack_of_le (by omega)] at h
      cases h
  case call nnn =>
    simp only [exec, execCall]
    split
    · next h => exact .inr ⟨_, _, rfl, .inr (.inl ⟨rfl, h⟩)⟩
    · exact .inl ⟨_, rfl, rfl⟩
  all_goals exact .inl ⟨_, rfl, rfl⟩

/-- One more step of a run, where the first step answers a next state. -/
theorem core_run_succ (n : Nat) (s t : State) (h : step s = .next t) :
    core.run (n + 1) s = core.run n t := by
  have run : ∀ (M : Host.Core) (a b : M.State), M.step a = .next b → M.run (n + 1) a = M.run n b := by
    intro M a b hab
    change (match M.step a with
      | .next c => M.run n c
      | .fault r => .fault r
      | .refused r => .refused r) = _
    rw [hab]
  exact run core s t h

end Sys2Proof.Machine
end

