-- ==== Sys2Proof/Laws/PerInstr.lean ====
section
/-! SUPPORT. Statements for all instructions, made constructor by constructor: every instruction's
word is legal by 30_encoding.md R86 and lies in its own row of the table of R84. -/

namespace Sys2Proof.Laws.LegalEncoding

/-- The encoded word is legal, and the mask and match of the instruction's own table row accept it. -/
def Statement (i : Instr) : Prop :=
  wordLegal (encode i) = true ∧
    ∃ row ∈ opcodeTable, row.mnemonic = i.mnemonic ∧ encode i &&& row.mask = row.value

/-- A word of a family none of whose words is illegal. -/
theorem legal_of_family {w : Word} {f : Nat} (hf : w.toNat / 4096 = f)
    (h : f ≠ 0 ∧ f ≠ 5 ∧ f ≠ 9 ∧ f ≠ 8 ∧ f ≠ 0xE ∧ f ≠ 0xF) : wordLegal w = true := by
  simp [wordLegal, hf, h]

/-- A word of families 5 and 9 whose last nibble is 0. -/
theorem legal_of_last_zero {w : Word} {f : Nat} (hf : w.toNat / 4096 = f) (h : f = 5 ∨ f = 9)
    (h0 : w.toNat % 16 = 0) : wordLegal w = true := by
  rcases h with h | h <;> simp [wordLegal, hf, h, h0]

/-- A word of family 8 whose last nibble is a function. -/
theorem legal_of_alu {w : Word} {n : Nat} (hf : w.toNat / 4096 = 8) (hn : w.toNat % 16 = n)
    (h : [0x8, 0x9, 0xA, 0xB, 0xC, 0xD, 0xF].elem n = false) : wordLegal w = true := by
  simp only [wordLegal, hf, hn, h]
  rfl

/-- A word of family E whose low byte is a function. -/
theorem legal_of_keySkip {w : Word} {n : Nat} (hf : w.toNat / 4096 = 0xE)
    (hn : w.toNat % 256 = n) (h : [0x9E, 0xA1].elem n = true) : wordLegal w = true := by
  simp only [wordLegal, hf, hn, h]
  rfl

/-- A word of family F whose low byte is a function. -/
theorem legal_of_misc {w : Word} {n : Nat} (hf : w.toNat / 4096 = 0xF) (hn : w.toNat % 256 = n)
    (h : [0x07, 0x0A, 0x15, 0x18, 0x1E, 0x29, 0x33, 0x55, 0x65].elem n = true) :
    wordLegal w = true := by
  simp only [wordLegal, hf, hn, h]
  rfl

theorem cls : Statement (.cls) :=
  ⟨by decide, ⟨⟨"CLS", 0xFFFF, 0x00E0⟩, by decide, rfl, by decide⟩⟩

theorem ret : Statement (.ret) :=
  ⟨by decide, ⟨⟨"RET", 0xFFFF, 0x00EE⟩, by decide, rfl, by decide⟩⟩

theorem jp (nnn : BitVec 12) : Statement (.jp nnn) := by
  have := nnn.isLt
  have hw : (encode (.jp nnn)).toNat = _ := toNat_formatNnn 0x1 nnn
  simp only [BitVec.toNat_ofNat, BitVec.ofNat_eq_ofNat] at hw
  exact ⟨legal_of_family (f := 1) (by omega) (by decide), ⟨⟨"JP_nnn", 0xF000, 0x1000⟩, by decide, rfl,
    (formatNnn_and_F000 0x1 nnn).trans rfl⟩⟩

theorem call (nnn : BitVec 12) : Statement (.call nnn) := by
  have := nnn.isLt
  have hw : (encode (.call nnn)).toNat = _ := toNat_formatNnn 0x2 nnn
  simp only [BitVec.toNat_ofNat, BitVec.ofNat_eq_ofNat] at hw
  exact ⟨legal_of_family (f := 2) (by omega) (by decide), ⟨⟨"CALL_nnn", 0xF000, 0x2000⟩, by decide, rfl,
    (formatNnn_and_F000 0x2 nnn).trans rfl⟩⟩

theorem seImm (x : Reg) (nn : Byte) : Statement (.seImm x nn) := by
  have := x.isLt
  have := nn.isLt
  have hw : (encode (.seImm x nn)).toNat = _ := toNat_formatXnn 0x3 x nn
  simp only [BitVec.toNat_ofNat, BitVec.ofNat_eq_ofNat] at hw
  exact ⟨legal_of_family (f := 3) (by omega) (by decide), ⟨⟨"SE_Vx__nn", 0xF000, 0x3000⟩, by decide, rfl,
    (formatXnn_and_F000 0x3 x nn).trans rfl⟩⟩

theorem sneImm (x : Reg) (nn : Byte) : Statement (.sneImm x nn) := by
  have := x.isLt
  have := nn.isLt
  have hw : (encode (.sneImm x nn)).toNat = _ := toNat_formatXnn 0x4 x nn
  simp only [BitVec.toNat_ofNat, BitVec.ofNat_eq_ofNat] at hw
  exact ⟨legal_of_family (f := 4) (by omega) (by decide), ⟨⟨"SNE_Vx__nn", 0xF000, 0x4000⟩, by decide, rfl,
    (formatXnn_and_F000 0x4 x nn).trans rfl⟩⟩

theorem seReg (x y : Reg) : Statement (.seReg x y) := by
  have := x.isLt
  have := y.isLt
  have hw : (encode (.seReg x y)).toNat = _ := toNat_formatXyn 0x5 x y 0x0
  simp only [BitVec.toNat_ofNat, BitVec.ofNat_eq_ofNat] at hw
  exact ⟨legal_of_last_zero (f := 5) (by omega) (by decide) (by omega), ⟨⟨"SE_Vx__Vy", 0xF00F, 0x5000⟩, by decide, rfl,
    (formatXyn_and_F00F 0x5 x y 0x0).trans rfl⟩⟩

theorem ldImm (x : Reg) (nn : Byte) : Statement (.ldImm x nn) := by
  have := x.isLt
  have := nn.isLt
  have hw : (encode (.ldImm x nn)).toNat = _ := toNat_formatXnn 0x6 x nn
  simp only [BitVec.toNat_ofNat, BitVec.ofNat_eq_ofNat] at hw
  exact ⟨legal_of_family (f := 6) (by omega) (by decide), ⟨⟨"LD_Vx__nn", 0xF000, 0x6000⟩, by decide, rfl,
    (formatXnn_and_F000 0x6 x nn).trans rfl⟩⟩

theorem addImm (x : Reg) (nn : Byte) : Statement (.addImm x nn) := by
  have := x.isLt
  have := nn.isLt
  have hw : (encode (.addImm x nn)).toNat = _ := toNat_formatXnn 0x7 x nn
  simp only [BitVec.toNat_ofNat, BitVec.ofNat_eq_ofNat] at hw
  exact ⟨legal_of_family (f := 7) (by omega) (by decide), ⟨⟨"ADD_Vx__nn", 0xF000, 0x7000⟩, by decide, rfl,
    (formatXnn_and_F000 0x7 x nn).trans rfl⟩⟩

theorem ldReg (x y : Reg) : Statement (.ldReg x y) := by
  have := x.isLt
  have := y.isLt
  have hw : (encode (.ldReg x y)).toNat = _ := toNat_formatXyn 0x8 x y 0x0
  simp only [BitVec.toNat_ofNat, BitVec.ofNat_eq_ofNat] at hw
  exact ⟨legal_of_alu (n := 0) (by omega) (by omega) rfl, ⟨⟨"LD_Vx__Vy", 0xF00F, 0x8000⟩, by decide, rfl,
    (formatXyn_and_F00F 0x8 x y 0x0).trans rfl⟩⟩

theorem orReg (x y : Reg) : Statement (.orReg x y) := by
  have := x.isLt
  have := y.isLt
  have hw : (encode (.orReg x y)).toNat = _ := toNat_formatXyn 0x8 x y 0x1
  simp only [BitVec.toNat_ofNat, BitVec.ofNat_eq_ofNat] at hw
  exact ⟨legal_of_alu (n := 1) (by omega) (by omega) rfl, ⟨⟨"OR_Vx__Vy", 0xF00F, 0x8001⟩, by decide, rfl,
    (formatXyn_and_F00F 0x8 x y 0x1).trans rfl⟩⟩

theorem andReg (x y : Reg) : Statement (.andReg x y) := by
  have := x.isLt
  have := y.isLt
  have hw : (encode (.andReg x y)).toNat = _ := toNat_formatXyn 0x8 x y 0x2
  simp only [BitVec.toNat_ofNat, BitVec.ofNat_eq_ofNat] at hw
  exact ⟨legal_of_alu (n := 2) (by omega) (by omega) rfl, ⟨⟨"AND_Vx__Vy", 0xF00F, 0x8002⟩, by decide, rfl,
    (formatXyn_and_F00F 0x8 x y 0x2).trans rfl⟩⟩

theorem xorReg (x y : Reg) : Statement (.xorReg x y) := by
  have := x.isLt
  have := y.isLt
  have hw : (encode (.xorReg x y)).toNat = _ := toNat_formatXyn 0x8 x y 0x3
  simp only [BitVec.toNat_ofNat, BitVec.ofNat_eq_ofNat] at hw
  exact ⟨legal_of_alu (n := 3) (by omega) (by omega) rfl, ⟨⟨"XOR_Vx__Vy", 0xF00F, 0x8003⟩, by decide, rfl,
    (formatXyn_and_F00F 0x8 x y 0x3).trans rfl⟩⟩

theorem addReg (x y : Reg) : Statement (.addReg x y) := by
  have := x.isLt
  have := y.isLt
  have hw : (encode (.addReg x y)).toNat = _ := toNat_formatXyn 0x8 x y 0x4
  simp only [BitVec.toNat_ofNat, BitVec.ofNat_eq_ofNat] at hw
  exact ⟨legal_of_alu (n := 4) (by omega) (by omega) rfl, ⟨⟨"ADD_Vx__Vy", 0xF00F, 0x8004⟩, by decide, rfl,
    (formatXyn_and_F00F 0x8 x y 0x4).trans rfl⟩⟩

theorem subReg (x y : Reg) : Statement (.subReg x y) := by
  have := x.isLt
  have := y.isLt
  have hw : (encode (.subReg x y)).toNat = _ := toNat_formatXyn 0x8 x y 0x5
  simp only [BitVec.toNat_ofNat, BitVec.ofNat_eq_ofNat] at hw
  exact ⟨legal_of_alu (n := 5) (by omega) (by omega) rfl, ⟨⟨"SUB_Vx__Vy", 0xF00F, 0x8005⟩, by decide, rfl,
    (formatXyn_and_F00F 0x8 x y 0x5).trans rfl⟩⟩

theorem shr (x y : Reg) : Statement (.shr x y) := by
  have := x.isLt
  have := y.isLt
  have hw : (encode (.shr x y)).toNat = _ := toNat_formatXyn 0x8 x y 0x6
  simp only [BitVec.toNat_ofNat, BitVec.ofNat_eq_ofNat] at hw
  exact ⟨legal_of_alu (n := 6) (by omega) (by omega) rfl, ⟨⟨"SHR_Vx", 0xF00F, 0x8006⟩, by decide, rfl,
    (formatXyn_and_F00F 0x8 x y 0x6).trans rfl⟩⟩

theorem subnReg (x y : Reg) : Statement (.subnReg x y) := by
  have := x.isLt
  have := y.isLt
  have hw : (encode (.subnReg x y)).toNat = _ := toNat_formatXyn 0x8 x y 0x7
  simp only [BitVec.toNat_ofNat, BitVec.ofNat_eq_ofNat] at hw
  exact ⟨legal_of_alu (n := 7) (by omega) (by omega) rfl, ⟨⟨"SUBN_Vx__Vy", 0xF00F, 0x8007⟩, by decide, rfl,
    (formatXyn_and_F00F 0x8 x y 0x7).trans rfl⟩⟩

theorem shl (x y : Reg) : Statement (.shl x y) := by
  have := x.isLt
  have := y.isLt
  have hw : (encode (.shl x y)).toNat = _ := toNat_formatXyn 0x8 x y 0xE
  simp only [BitVec.toNat_ofNat, BitVec.ofNat_eq_ofNat] at hw
  exact ⟨legal_of_alu (n := 14) (by omega) (by omega) rfl, ⟨⟨"SHL_Vx", 0xF00F, 0x800E⟩, by decide, rfl,
    (formatXyn_and_F00F 0x8 x y 0xE).trans rfl⟩⟩

theorem sneReg (x y : Reg) : Statement (.sneReg x y) := by
  have := x.isLt
  have := y.isLt
  have hw : (encode (.sneReg x y)).toNat = _ := toNat_formatXyn 0x9 x y 0x0
  simp only [BitVec.toNat_ofNat, BitVec.ofNat_eq_ofNat] at hw
  exact ⟨legal_of_last_zero (f := 9) (by omega) (by decide) (by omega), ⟨⟨"SNE_Vx__Vy", 0xF00F, 0x9000⟩, by decide, rfl,
    (formatXyn_and_F00F 0x9 x y 0x0).trans rfl⟩⟩

theorem ldI (nnn : BitVec 12) : Statement (.ldI nnn) := by
  have := nnn.isLt
  have hw : (encode (.ldI nnn)).toNat = _ := toNat_formatNnn 0xA nnn
  simp only [BitVec.toNat_ofNat, BitVec.ofNat_eq_ofNat] at hw
  exact ⟨legal_of_family (f := 10) (by omega) (by decide), ⟨⟨"LD_I__nnn", 0xF000, 0xA000⟩, by decide, rfl,
    (formatNnn_and_F000 0xA nnn).trans rfl⟩⟩

theorem jpV0 (nnn : BitVec 12) : Statement (.jpV0 nnn) := by
  have := nnn.isLt
  have hw : (encode (.jpV0 nnn)).toNat = _ := toNat_formatNnn 0xB nnn
  simp only [BitVec.toNat_ofNat, BitVec.ofNat_eq_ofNat] at hw
  exact ⟨legal_of_family (f := 11) (by omega) (by decide), ⟨⟨"JP_V0__nnn", 0xF000, 0xB000⟩, by decide, rfl,
    (formatNnn_and_F000 0xB nnn).trans rfl⟩⟩

theorem rnd (x : Reg) (nn : Byte) : Statement (.rnd x nn) := by
  have := x.isLt
  have := nn.isLt
  have hw : (encode (.rnd x nn)).toNat = _ := toNat_formatXnn 0xC x nn
  simp only [BitVec.toNat_ofNat, BitVec.ofNat_eq_ofNat] at hw
  exact ⟨legal_of_family (f := 12) (by omega) (by decide), ⟨⟨"RND_Vx__nn", 0xF000, 0xC000⟩, by decide, rfl,
    (formatXnn_and_F000 0xC x nn).trans rfl⟩⟩

theorem drw (x y : Reg) (n : Nibble) : Statement (.drw x y n) := by
  have := x.isLt
  have := y.isLt
  have := n.isLt
  have hw : (encode (.drw x y n)).toNat = _ := toNat_formatXyn 0xD x y n
  simp only [BitVec.toNat_ofNat, BitVec.ofNat_eq_ofNat] at hw
  exact ⟨legal_of_family (f := 13) (by omega) (by decide), ⟨⟨"DRW_Vx__Vy__n", 0xF000, 0xD000⟩, by decide, rfl,
    (formatXyn_and_F000 0xD x y n).trans rfl⟩⟩

theorem skp (x : Reg) : Statement (.skp x) := by
  have := x.isLt
  have hw : (encode (.skp x)).toNat = _ := toNat_formatXnn 0xE x 0x9E
  simp only [BitVec.toNat_ofNat, BitVec.ofNat_eq_ofNat] at hw
  exact ⟨legal_of_keySkip (n := 158) (by omega) (by omega) rfl, ⟨⟨"SKP_Vx", 0xF0FF, 0xE09E⟩, by decide, rfl,
    (formatXnn_and_F0FF 0xE x 0x9E).trans rfl⟩⟩

theorem sknp (x : Reg) : Statement (.sknp x) := by
  have := x.isLt
  have hw : (encode (.sknp x)).toNat = _ := toNat_formatXnn 0xE x 0xA1
  simp only [BitVec.toNat_ofNat, BitVec.ofNat_eq_ofNat] at hw
  exact ⟨legal_of_keySkip (n := 161) (by omega) (by omega) rfl, ⟨⟨"SKNP_Vx", 0xF0FF, 0xE0A1⟩, by decide, rfl,
    (formatXnn_and_F0FF 0xE x 0xA1).trans rfl⟩⟩

theorem ldVxDt (x : Reg) : Statement (.ldVxDt x) := by
  have := x.isLt
  have hw : (encode (.ldVxDt x)).toNat = _ := toNat_formatXnn 0xF x 0x07
  simp only [BitVec.toNat_ofNat, BitVec.ofNat_eq_ofNat] at hw
  exact ⟨legal_of_misc (n := 7) (by omega) (by omega) rfl, ⟨⟨"LD_Vx__DT", 0xF0FF, 0xF007⟩, by decide, rfl,
    (formatXnn_and_F0FF 0xF x 0x07).trans rfl⟩⟩

theorem ldVxK (x : Reg) : Statement (.ldVxK x) := by
  have := x.isLt
  have hw : (encode (.ldVxK x)).toNat = _ := toNat_formatXnn 0xF x 0x0A
  simp only [BitVec.toNat_ofNat, BitVec.ofNat_eq_ofNat] at hw
  exact ⟨legal_of_misc (n := 10) (by omega) (by omega) rfl, ⟨⟨"LD_Vx__K", 0xF0FF, 0xF00A⟩, by decide, rfl,
    (formatXnn_and_F0FF 0xF x 0x0A).trans rfl⟩⟩

theorem ldDtVx (x : Reg) : Statement (.ldDtVx x) := by
  have := x.isLt
  have hw : (encode (.ldDtVx x)).toNat = _ := toNat_formatXnn 0xF x 0x15
  simp only [BitVec.toNat_ofNat, BitVec.ofNat_eq_ofNat] at hw
  exact ⟨legal_of_misc (n := 21) (by omega) (by omega) rfl, ⟨⟨"LD_DT__Vx", 0xF0FF, 0xF015⟩, by decide, rfl,
    (formatXnn_and_F0FF 0xF x 0x15).trans rfl⟩⟩

theorem ldStVx (x : Reg) : Statement (.ldStVx x) := by
  have := x.isLt
  have hw : (encode (.ldStVx x)).toNat = _ := toNat_formatXnn 0xF x 0x18
  simp only [BitVec.toNat_ofNat, BitVec.ofNat_eq_ofNat] at hw
  exact ⟨legal_of_misc (n := 24) (by omega) (by omega) rfl, ⟨⟨"LD_ST__Vx", 0xF0FF, 0xF018⟩, by decide, rfl,
    (formatXnn_and_F0FF 0xF x 0x18).trans rfl⟩⟩

theorem addI (x : Reg) : Statement (.addI x) := by
  have := x.isLt
  have hw : (encode (.addI x)).toNat = _ := toNat_formatXnn 0xF x 0x1E
  simp only [BitVec.toNat_ofNat, BitVec.ofNat_eq_ofNat] at hw
  exact ⟨legal_of_misc (n := 30) (by omega) (by omega) rfl, ⟨⟨"ADD_I__Vx", 0xF0FF, 0xF01E⟩, by decide, rfl,
    (formatXnn_and_F0FF 0xF x 0x1E).trans rfl⟩⟩

theorem ldF (x : Reg) : Statement (.ldF x) := by
  have := x.isLt
  have hw : (encode (.ldF x)).toNat = _ := toNat_formatXnn 0xF x 0x29
  simp only [BitVec.toNat_ofNat, BitVec.ofNat_eq_ofNat] at hw
  exact ⟨legal_of_misc (n := 41) (by omega) (by omega) rfl, ⟨⟨"LD_F__Vx", 0xF0FF, 0xF029⟩, by decide, rfl,
    (formatXnn_and_F0FF 0xF x 0x29).trans rfl⟩⟩

theorem ldB (x : Reg) : Statement (.ldB x) := by
  have := x.isLt
  have hw : (encode (.ldB x)).toNat = _ := toNat_formatXnn 0xF x 0x33
  simp only [BitVec.toNat_ofNat, BitVec.ofNat_eq_ofNat] at hw
  exact ⟨legal_of_misc (n := 51) (by omega) (by omega) rfl, ⟨⟨"LD_B__Vx", 0xF0FF, 0xF033⟩, by decide, rfl,
    (formatXnn_and_F0FF 0xF x 0x33).trans rfl⟩⟩

theorem storeRegs (x : Reg) : Statement (.storeRegs x) := by
  have := x.isLt
  have hw : (encode (.storeRegs x)).toNat = _ := toNat_formatXnn 0xF x 0x55
  simp only [BitVec.toNat_ofNat, BitVec.ofNat_eq_ofNat] at hw
  exact ⟨legal_of_misc (n := 85) (by omega) (by omega) rfl, ⟨⟨"LD__I___Vx", 0xF0FF, 0xF055⟩, by decide, rfl,
    (formatXnn_and_F0FF 0xF x 0x55).trans rfl⟩⟩

theorem loadRegs (x : Reg) : Statement (.loadRegs x) := by
  have := x.isLt
  have hw : (encode (.loadRegs x)).toNat = _ := toNat_formatXnn 0xF x 0x65
  simp only [BitVec.toNat_ofNat, BitVec.ofNat_eq_ofNat] at hw
  exact ⟨legal_of_misc (n := 101) (by omega) (by omega) rfl, ⟨⟨"LD_Vx___I", 0xF0FF, 0xF065⟩, by decide, rfl,
    (formatXnn_and_F0FF 0xF x 0x65).trans rfl⟩⟩

end Sys2Proof.Laws.LegalEncoding
end

