-- ==== Sys2Proof/Tests/Slice0.lean ====
section
/-! SUPPORT. Tests of one step each, with the results of spec/95_test_vectors.md (the vector's number is
named); decoding of words written out by hand; what each check refuses; and, for every statement with
hypotheses, a state and operands that meet them. -/

namespace Sys2Proof.Tests

open Sys2Proof.Machine

/-! ### Helpers -/

/-- The reset state with some V registers given. -/
def regs : List (Reg × Byte) → State
  | [] => State.reset
  | (x, b) :: l => (regs l).writeV x b

/-- The state of a next outcome. -/
def stateOf : Result → State
  | .next t => t
  | .fault f => nomatch f
  | .refused _ => State.reset

/-- The state after one step of the machine with word `w` placed at PC. -/
def after (w : Nat) (s : State) : State := stateOf (step (s.withFetchWord 16 w))

/-- The fault record of that step. -/
def faultAfter (w : Nat) (s : State) : Option FaultRecord := (after w s).fault

/-- The sprite of vectors G1 to G19: F0, 90 at 0x300, drawn at column byte 1, row 2. -/
def sprite : State := ((regs [(0, 0x08), (1, 0x02)]).setI 0x300).writeMem 0x300 [0xF0, 0x90]

/-- A word decodes to an instruction, and the instruction encodes to the word. -/
def spells (w : Word) (i : Instr) : Bool :=
  (match decodeWord w with
    | .ok j => j == i
    | .error _ => false) && encode i == w

/-! ### Decoding: a word of each row, written out from its pattern -/

/-- 00E0, 00EE, 1nnn, 2nnn, Bnnn. -/
theorem test_decode_control :
    spells 0x00E0 .cls ∧ spells 0x00EE .ret ∧ spells 0x1ABC (.jp 0xABC) ∧
      spells 0x2ABC (.call 0xABC) ∧ spells 0xB300 (.jpV0 0x300) := by decide

/-- 3xnn, 4xnn, 5xy0, 9xy0, Ex9E, ExA1. -/
theorem test_decode_skips :
    spells 0x332A (.seImm 3 0x2A) ∧ spells 0x4F01 (.sneImm 15 0x01) ∧ spells 0x5120 (.seReg 1 2) ∧
      spells 0x9AB0 (.sneReg 10 11) ∧ spells 0xE29E (.skp 2) ∧ spells 0xECA1 (.sknp 12) := by decide

/-- 6xnn, 7xnn, Annn, Cxnn. -/
theorem test_decode_immediates :
    spells 0x6A2F (.ldImm 10 0x2F) ∧ spells 0x7105 (.addImm 1 0x05) ∧ spells 0xA2F0 (.ldI 0x2F0) ∧
      spells 0xC30F (.rnd 3 0x0F) := by decide

/-- 8xy0 to 8xy7 and 8xyE, the ignored `y` of 8xy6 and 8xyE kept. -/
theorem test_decode_alu :
    spells 0x8120 (.ldReg 1 2) ∧ spells 0x8121 (.orReg 1 2) ∧ spells 0x8122 (.andReg 1 2) ∧
      spells 0x8123 (.xorReg 1 2) ∧ spells 0x8124 (.addReg 1 2) ∧ spells 0x8F15 (.subReg 15 1) ∧
      spells 0x81A6 (.shr 1 10) ∧ spells 0x8127 (.subnReg 1 2) ∧ spells 0x81AE (.shl 1 10) := by
  decide

/-- Dxyn. -/
theorem test_decode_draw : spells 0xD01F (.drw 0 1 15) ∧ spells 0xDFE0 (.drw 15 14 0) := by decide

/-- Fx07 to Fx65. -/
theorem test_decode_misc :
    spells 0xF307 (.ldVxDt 3) ∧ spells 0xF50A (.ldVxK 5) ∧ spells 0xF215 (.ldDtVx 2) ∧
      spells 0xF218 (.ldStVx 2) ∧ spells 0xF41E (.addI 4) ∧ spells 0xF029 (.ldF 0) ∧
      spells 0xF733 (.ldB 7) ∧ spells 0xFF55 (.storeRegs 15) ∧ spells 0xFE65 (.loadRegs 14) := by
  decide

/-- The byte at the lower address is the high byte (20_memory.md R52). -/
theorem test_byte_order :
    encodeBytes (.ldImm 10 0x2F) = [0x6A, 0x2F] ∧ decodeTableWord 16 0x6A2F = some (.ldImm 10 0x2F) := by
  decide

/-! ### What each check refuses -/

/-- Words of each illegal group of R86 (vectors K8, K12, K22, K23, A70, A71, X23 to X25, E1 to E4). -/
theorem test_wordLegal_refuses :
    ([0x0000, 0x0123, 0x00E1, 0x00FF, 0x5123, 0x9121, 0x8128, 0x812F, 0xE29F, 0xE2A0, 0xF000, 0xF075,
      0xF085] : List Word).any wordLegal = false := by decide

/-- The decoder refuses such a word by its name, and half a word as truncated. -/
theorem test_decode_refuses :
    decodeWord 0x0123 = .error (.illegalInstruction 0x0123) ∧ decodeTableWord 16 0x812F = none ∧
      decodeBytes [0x12] = .error .truncated := ⟨rfl, rfl, rfl⟩

/-- One byte more than `ROM_MAX` is refused, `ROM_MAX` itself is not. -/
theorem test_romFits_refuses :
    ¬romFits (List.replicate 3585 0) = true ∧ romFits (List.replicate 3584 0) = true := by
  rw [romFits_iff, romFits_iff, List.length_replicate, List.length_replicate]
  decide

/-- Whatever `KEY_NONE` is, at most one of 16 and 17 is a value the host may supply. -/
theorem test_keyLegal_refuses : keyLegal 16 = false ∨ keyLegal 17 = false := by
  unfold keyLegal
  by_cases h : (16 : Byte) = Config.keyNone
  · exact .inr (by rw [← h]; decide)
  · exact .inl (by rw [beq_eq_false_iff_ne.2 h]; decide)

/-- Not canonical: out of order, repeated, equal to the reset contents, outside memory. -/
theorem test_memoryWf_refuses :
    ([[(0x301, 1), (0x300, 1)], [(0x300, 1), (0x300, 2)], [(0x300, 0)], [(0, 0xF0)],
      [(4096, 1)]] : List Memory).any Memory.wf = false := by decide

/-- Not a state of a run: SP of 16 (10_state.md R36). -/
theorem test_inv_refuses : ¬(State.reset.setSp 16).Inv := fun h =>
  absurd h.sp_reachable (by decide)

/-- `State.safe` refuses a faulted state. -/
theorem test_safe_refuses : (State.reset.faulted .stack 0x00EE 0xFF).safe = false := by decide

/-! ### Control flow -/

/-- C1. -/
theorem test_ret :
    (after 0x00EE (((State.reset.setPc 0xABC).setSp 1).writeStack 1 0x200)).pc = 0x202 := by decide

/-- C3, C4: the stack fault. -/
theorem test_ret_faults :
    faultAfter 0x00EE (State.reset.setSp 0xFF) = some ⟨.stack, 0x200, 0x00EE, 0xFF⟩ ∧
      faultAfter 0x00EE (State.reset.setSp 0x10) = some ⟨.stack, 0x200, 0x00EE, 0x10⟩ := by decide

/-- C6, C9. -/
theorem test_jp : (after 0x1ABC State.reset).pc = 0xABC ∧ (after 0x1001 State.reset).pc = 1 := by
  decide

/-- C11, and C13: the pointer wraps to slot 0. -/
theorem test_call :
    (after 0x2ABC ((State.reset.setPc 0x456).setSp 14)).readStack 15 = some 0x456 ∧
      (after 0x2ABC (State.reset.setSp 0xFF)).readStack 0 = some 0x200 := by decide

/-- C12. -/
theorem test_call_faults :
    faultAfter 0x2ABC (State.reset.setSp 15) = some ⟨.stack, 0x200, 0x2ABC, 0x10⟩ := by decide

/-- C15. -/
theorem test_jpV0 : (after 0xBFFF (regs [(0, 0xFF)])).pc = 0x10FE := by decide

/-! ### Skips -/

/-- K1, K2. -/
theorem test_seImm :
    (after 0x332A (regs [(3, 0x2A)])).pc = 0x204 ∧ (after 0x332A (regs [(3, 0x2B)])).pc = 0x202 := by
  decide

/-- K3, K4. -/
theorem test_sneImm :
    (after 0x432A (regs [(3, 0x2A)])).pc = 0x202 ∧ (after 0x432A (regs [(3, 0x2B)])).pc = 0x204 := by
  decide

/-- K5, K6. -/
theorem test_seReg :
    (after 0x5120 (regs [(1, 7), (2, 7)])).pc = 0x204 ∧
      (after 0x5120 (regs [(1, 7), (2, 8)])).pc = 0x202 := by decide

/-- K9, K10. -/
theorem test_sneReg :
    (after 0x9120 (regs [(1, 7), (2, 8)])).pc = 0x204 ∧
      (after 0x9120 (regs [(1, 7), (2, 7)])).pc = 0x202 := by decide

/-- K13, K15: all 8 bits are compared. -/
theorem test_skp :
    (after 0xE29E ((regs [(2, 5)]).setKey 5)).pc = 0x204 ∧
      (after 0xE29E ((regs [(2, 0x15)]).setKey 5)).pc = 0x202 := by decide

/-- K16, K17. -/
theorem test_sknp :
    (after 0xE2A1 ((regs [(2, 5)]).setKey 5)).pc = 0x202 ∧
      (after 0xE2A1 ((regs [(2, 5)]).setKey 6)).pc = 0x204 := by decide

/-! ### Immediates and random -/

/-- M1. -/
theorem test_ldImm : (after 0x6A2F State.reset).readV 10 = 0x2F := by decide

/-- M3, M6: the sum wraps and no flag is written. -/
theorem test_addImm :
    (after 0x7105 (regs [(1, 0xFE), (15, 9)])).readV 1 = 3 ∧
      (after 0x7105 (regs [(1, 0xFE), (15, 9)])).readV 15 = 9 := by decide

/-- M7. -/
theorem test_ldI : (after 0xA2F0 (State.reset.setI 0xFFFF)).i = 0x2F0 := by decide

/-- M10: a zero mask gives 0 whatever the byte; one draw is counted. -/
theorem test_rnd :
    (after 0xC300 (regs [(3, 7)])).readV 3 = 0 ∧ (after 0xC300 (regs [(3, 7)])).draws = 1 :=
  ⟨BitVec.and_zero, rfl⟩

/-! ### ALU -/

/-- A1, A2: an add, wrapping, VF unchanged. -/
theorem test_ldReg :
    (after 0x8120 (regs [(1, 0x10), (2, 0x22)])).readV 1 = 0x32 ∧
      (after 0x8120 (regs [(1, 0xF0), (2, 0x20), (15, 7)])).readV 15 = 7 := by decide

/-- A6. -/
theorem test_orReg :
    (after 0x8121 (regs [(1, 0x0C), (2, 0x0A), (15, 9)])).readV 1 = 0x0E ∧
      (after 0x8121 (regs [(1, 0x0C), (2, 0x0A), (15, 9)])).readV 15 = 9 := by decide

/-- A7. -/
theorem test_andReg : (after 0x8122 (regs [(1, 0x0C), (2, 0x0A)])).readV 1 = 0x08 := by decide

/-- A8. -/
theorem test_xorReg : (after 0x8123 (regs [(1, 0x0C), (2, 0x0A)])).readV 1 = 0x06 := by decide

/-- A20. -/
theorem test_addReg :
    (after 0x8124 (regs [(1, 0xFF), (2, 1)])).readV 1 = 0 ∧
      (after 0x8124 (regs [(1, 0xFF), (2, 1)])).readV 15 = 1 := by decide

/-- A24, A26: VF as destination and as source. -/
theorem test_addReg_vf :
    (after 0x8F14 (regs [(15, 0xF0), (1, 0x20)])).readV 15 = 1 ∧
      (after 0x81F4 (regs [(1, 0xFF), (15, 2)])).readV 1 = 1 := by decide

/-- A30, A32. -/
theorem test_subReg :
    (after 0x8125 (regs [(1, 5), (2, 7)])).readV 1 = 0xFE ∧
      (after 0x8125 (regs [(1, 7), (2, 7)])).readV 15 = 1 := by decide

/-- A40, A44. -/
theorem test_subnReg :
    (after 0x8127 (regs [(1, 5), (2, 7)])).readV 1 = 2 ∧
      (after 0x81F7 (regs [(1, 3), (15, 1)])).readV 15 = 0 := by decide

/-- A54, A55. -/
theorem test_shr :
    (after 0x81A6 (regs [(1, 0x80), (10, 0x33)])).readV 15 = 0x81 ∧
      (after 0x8F06 (regs [(15, 6)])).readV 15 = 3 := by decide

/-- A60, A66. -/
theorem test_shl :
    (after 0x810E (regs [(1, 0x81)])).readV 15 = 0x89 ∧
      (after 0x8F0E (regs [(15, 0xC0)])).readV 15 = 0x90 := by decide

/-! ### Display -/

/-- G0. -/
theorem test_cls :
    (after 0x00E0 ((regs [(15, 5)]).writeDisp 9 0xF0)).readDisp 9 = 0 ∧
      (after 0x00E0 ((regs [(15, 5)]).writeDisp 9 0xF0)).readV 15 = 5 := by decide

/-- G1 and G6: the two rows, and a collision. -/
theorem test_drw :
    (after 0xD012 sprite).readDisp 17 = 0xF0 ∧ (after 0xD012 sprite).readDisp 25 = 0x90 ∧
      (after 0xD012 sprite).readV 15 = 0 ∧
      (after 0xD012 (sprite.writeDisp 17 0x1F)).readDisp 17 = 0xEF ∧
      (after 0xD012 (sprite.writeDisp 17 0x1F)).readV 15 = 1 := by decide +kernel

/-- G9, G15, G16, G17: which fault, and what it names. -/
theorem test_drw_faults :
    faultAfter 0xD012 ((regs [(1, 0x1F)]).setI 0x300) = some ⟨.displayIndex, 0x200, 0xD012, 0x100⟩ ∧
      faultAfter 0xD012 ((regs [(1, 0x1F)]).setI 0xFFF) =
        some ⟨.memoryAddress, 0x200, 0xD012, 0x1000⟩ ∧
      faultAfter 0xD012 ((regs [(1, 0x20)]).setI 0xFFF) =
        some ⟨.displayIndex, 0x200, 0xD012, 0x100⟩ ∧
      faultAfter 0xD012 ((regs [(1, 0x20)]).setI 0x1000) =
        some ⟨.memoryAddress, 0x200, 0xD012, 0x1000⟩ := by decide

/-! ### Timers and key latch -/

/-- T1. -/
theorem test_ldVxDt :
    (after 0xF307 (State.reset.setDt 0x10)).readV 3 = 0x10 ∧
      (after 0xF307 (State.reset.setDt 0x10)).dt = 0x0F := by decide

/-- T4. -/
theorem test_ldVxK : (after 0xF50A (State.reset.setKey 0x0B)).readV 5 = 0x0B := by decide

/-- T6, T8. -/
theorem test_ldDtVx :
    (after 0xF215 (regs [(2, 0x3C)])).dt = 0x3B ∧
      (after 0xF215 ((regs [(2, 0)]).setDt 9)).dt = 0 := by decide

/-- T9, T9b. -/
theorem test_ldStVx :
    (after 0xF218 (regs [(2, 5)])).st = 4 ∧ (after 0xF218 ((regs [(2, 0)]).setSt 7)).st = 0 := by
  decide

/-- T10, T13: every step that does not fault ticks, a faulting one does not. -/
theorem test_timer_phase :
    (after 0x6000 ((State.reset.setDt 5).setSt 1)).dt = 4 ∧
      (after 0x6000 ((State.reset.setDt 5).setSt 1)).st = 0 ∧
      (after 0x0000 ((State.reset.setDt 5).setSt 5)).dt = 5 := by decide

/-! ### Address register and memory -/

/-- X1, X2. -/
theorem test_addI :
    (after 0xF41E ((regs [(4, 0x20)]).setI 0xFF0)).i = 0x1010 ∧
      (after 0xF41E ((regs [(4, 2)]).setI 0xFFFF)).i = 1 := by decide

/-- X4, X5. -/
theorem test_ldF :
    (after 0xF029 (regs [(0, 0x0A)])).i = 0x32 ∧ (after 0xF029 (regs [(0, 0xFF)])).i = 0x4FB := by
  decide

/-- X11: the last legal I. -/
theorem test_ldB :
    (after 0xF733 ((regs [(7, 0x9C)]).setI 0xFFD)).mem =
      [(0x200, 0xF7), (0x201, 0x33), (0xFFD, 1), (0xFFE, 5), (0xFFF, 6)] := by decide

/-- X12, X13. -/
theorem test_ldB_faults :
    faultAfter 0xF733 ((regs [(7, 0x9C)]).setI 0xFFE) =
        some ⟨.memoryAddress, 0x200, 0xF733, 0x1000⟩ ∧
      (after 0xF733 ((regs [(7, 0x9C)]).setI 0xFFE)).readMem 0xFFE = 0 := by decide

/-- X14. -/
theorem test_storeRegs :
    (after 0xF255 ((regs [(0, 0x11), (1, 0x22), (2, 0x33), (3, 0x44)]).setI 0x300)).mem =
      [(0x200, 0xF2), (0x201, 0x55), (0x300, 0x11), (0x301, 0x22), (0x302, 0x33)] := by decide

/-- X17. -/
theorem test_storeRegs_faults :
    faultAfter 0xF155 ((regs [(0, 0x11), (1, 0x22)]).setI 0xFFF) =
      some ⟨.memoryAddress, 0x200, 0xF155, 0x1000⟩ := by decide

/-- X18: I stays. -/
theorem test_loadRegs :
    let t := after 0xF265 (((regs [(3, 0x77)]).setI 0x300).writeMem 0x300 [0x11, 0x22, 0x33, 0x44])
    t.readV 0 = 0x11 ∧ t.readV 2 = 0x33 ∧ t.readV 3 = 0x77 ∧ t.i = 0x300 := by decide

/-- X19, and X21: an instruction reads its own bytes. -/
theorem test_loadRegs_edges :
    faultAfter 0xF165 (State.reset.setI 0xFFF) = some ⟨.memoryAddress, 0x200, 0xF165, 0x1000⟩ ∧
      (after 0xF165 (State.reset.setI 0x200)).readV 1 = 0x65 := by decide

/-! ### Fetch, decode, reset -/

/-- E2, E5, E6. -/
theorem test_fetch_faults :
    faultAfter 0x0123 State.reset = some ⟨.illegalInstruction, 0x200, 0x0123, 0⟩ ∧
      (stateOf (step (State.reset.setPc 0xFFF))).fault = some ⟨.fetchAddress, 0xFFF, 0, 0xFFF⟩ ∧
      (stateOf (step (State.reset.setPc 0xFFFF))).fault = some ⟨.fetchAddress, 0xFFFF, 0, 0xFFFF⟩ := by
  decide

/-- E7: the last fetchable address. -/
theorem test_last_fetch :
    (after 0x6001 (State.reset.setPc 0xFFE)).readV 0 = 1 ∧
      (after 0x6001 (State.reset.setPc 0xFFE)).pc = 0x1000 := by decide

/-- The step event with its key value (T4, through the host's interface). -/
theorem test_hostStep :
    (stateOf (hostStep 0x0B (State.reset.withFetchWord 16 0xF50A))).readV 5 = 0x0B := by decide

/-- The codes of 60_exceptions.md R200. -/
theorem test_fault_codes :
    [FaultCause.illegalInstruction, .fetchAddress, .memoryAddress, .stack, .displayIndex].map
      FaultCause.code = [1, 2, 3, 4, 5] := by decide

/-! ### Witnesses: states and operands that meet the hypotheses of the statements -/

/-- `ResetLeavesTheTabledValues`: a ROM at the largest length, and one byte more. -/
theorem witness_reset_rom :
    (List.replicate 3584 (0 : Byte)).length ≤ 3584 ∧ 3584 < (List.replicate 3585 (0 : Byte)).length := by
  rw [List.length_replicate, List.length_replicate]
  decide

/-- `EmptyRomFaultsAtTheFirstStep`, `EveryHostResetMeetsTheInvariant`: resets that give a state. -/
theorem witness_host_reset :
    (∃ s, hostReset [] (Vector.replicate 80 0) = .ok s) ∧
      ∃ s, hostReset [0x12, 0x00] defaultFont = .ok s := ⟨⟨_, rfl⟩, ⟨_, rfl⟩⟩

/-- `EncodeOfDecodeIsTheWord`. -/
theorem witness_decoded : decodeWord 0x81A6 = .ok (.shr 1 10) := rfl

/-- `DecodeMatchesTheOpcodeTable`: a word of a row, and a word of none. -/
theorem witness_table :
    (∃ row ∈ opcodeTable, (0xF0FF : Word) &&& row.mask = row.value ∨
        (0x8AB6 : Word) &&& row.mask = row.value) ∧
      ∀ row ∈ opcodeTable, (0x5123 : Word) &&& row.mask ≠ row.value := by decide

/-- `StepRunsTheDecodedInstruction`: at the reset PC and at the last fetchable one, an execution that
ends without a fault and one that ends with it. -/
theorem witness_step :
    (∃ s : State, ∃ i t, s.fault = none ∧ s.pc.toNat ≤ 0xFFE ∧
      decodeWord (s.readMem s.pc.toNat ++ s.readMem (s.pc.toNat + 1)) = .ok i ∧
      exec i s = .next t ∧ t.fault = none) ∧
    (∃ s : State, ∃ i t, s.fault = none ∧ s.pc = 0xFFE ∧
      decodeWord (s.readMem s.pc.toNat ++ s.readMem (s.pc.toNat + 1)) = .ok i ∧
      exec i s = .next t ∧ t.fault ≠ none) :=
  ⟨⟨State.reset.withFetchWord 16 0x6A2F, .ldImm 10 0x2F, _, rfl, by decide, rfl, rfl, rfl⟩,
    ⟨((State.reset.setPc 0xFFE).setSp 16).withFetchWord 16 0x00EE, .ret, _, rfl, rfl, rfl, rfl,
      by decide⟩⟩

/-- `PlacedWordIsTheNextInstruction`: reset memory, and a faulted state beyond the fetch range. -/
theorem witness_place :
    State.reset.mem.wf = true ∧
      ((State.reset.setPc 0xFFF).faulted .fetchAddress 0 0xFFF).mem.wf = true := by decide

/-- `FetchBeyondMemoryFaults`: just beyond, and at the top. -/
theorem witness_fetch :
    ((State.reset.setPc 0xFFF).fault = none ∧ 0xFFE < (State.reset.setPc 0xFFF).pc.toNat) ∧
      ((State.reset.setPc 0xFFFF).fault = none ∧ 0xFFE < (State.reset.setPc 0xFFFF).pc.toNat) := by
  decide

/-- `IllegalWordFaults`. -/
theorem witness_illegal :
    let s := (State.reset.setPc 0xFFE).withFetchWord 16 0x5123
    s.fault = none ∧ s.pc.toNat ≤ 0xFFE ∧ wordLegal s.fetchWord = false := by decide

/-- `FaultsArePreciseAndSticky`: a running and a faulted machine. -/
theorem witness_faulted :
    State.reset.fault = none ∧ (State.reset.faulted .stack 0x00EE 16).fault ≠ none := by decide

/-- A step from `s`, with no fault recorded, that records `cause`. -/
def recordsFault (s : State) (cause : FaultCause) : Prop :=
  ∃ t r, s.fault = none ∧ step s = .next t ∧ t.fault = some r ∧ r.cause = cause

/-- `FaultRecordIdentifiesTheFault`: a step that records each cause. -/
theorem witness_record :
    recordsFault (State.reset.setPc 0xFFF) .fetchAddress ∧
      recordsFault State.reset .illegalInstruction ∧
      recordsFault ((State.reset.setI 0xFFE).withFetchWord 16 0xF033) .memoryAddress ∧
      recordsFault ((State.reset.setSp 15).withFetchWord 16 0x2ABC) .stack ∧
      recordsFault ((regs [(1, 0x20)]).withFetchWord 16 0xD011) .displayIndex :=
  ⟨⟨_, _, rfl, rfl, rfl, rfl⟩, ⟨_, _, rfl, rfl, rfl, rfl⟩, ⟨_, _, rfl, rfl, rfl, rfl⟩,
    ⟨_, _, rfl, rfl, rfl, rfl⟩, ⟨_, _, rfl, rfl, rfl, rfl⟩⟩

/-- `OnlySixInstructionsCanFault`. -/
theorem witness_cannot_fault :
    let i : Instr := .cls
    i ≠ .ret ∧ (∀ nnn, i ≠ .call nnn) ∧ (∀ x y n, i ≠ .drw x y n) ∧ (∀ x, i ≠ .ldB x) ∧
      (∀ x, i ≠ .storeRegs x) ∧ (∀ x, i ≠ .loadRegs x) := by
  refine ⟨?_, ?_, ?_, ?_, ?_, ?_⟩ <;> intros <;> exact Instr.noConfusion

/-- `TimersCountDownAfterExecute`, `TimersRiseOnlyWhenWritten`, `TimerAndKeyReadsFillTheRegister`,
`TimerWritesTakeTheRegister`: a state that runs each of the instructions named. -/
theorem witness_runs :
    (State.reset.withFetchWord 16 0x6A2F).runs (.ldImm 10 0x2F) ∧
      (State.reset.withFetchWord 16 0xF307).runs (.ldVxDt 3) ∧
      (State.reset.withFetchWord 16 0xF215).runs (.ldDtVx 2) ∧
      (State.reset.withFetchWord 16 0xF218).runs (.ldStVx 2) :=
  ⟨⟨rfl, by decide, rfl⟩, ⟨rfl, by decide, rfl⟩, ⟨rfl, by decide, rfl⟩, ⟨rfl, by decide, rfl⟩⟩

/-- The same two statements: an execution and a step that end in a next state without a fault. -/
theorem witness_timers :
    let s := State.reset.withFetchWord 16 0x6A2F
    (∃ u, exec (.ldImm 10 0x2F) s = .next u ∧ u.fault = none) ∧ ∃ t, step s = .next t :=
  ⟨⟨_, rfl, rfl⟩, ⟨_, rfl⟩⟩

/-- `ReturnGoesToTheSlotPlusTwo`: SP at 15 and 16, and at 0xFF. -/
theorem witness_ret :
    (State.reset.setSp 15).sp.toNat ≤ 15 ∧ 15 < (State.reset.setSp 16).sp.toNat ∧
      15 < (State.reset.setSp 0xFF).sp.toNat := by decide

/-- `CallPushesTheCallSite`, `CallThenReturnComesBack`: SP at 14 and 15, and at 0xFF, which wraps. -/
theorem witness_call :
    ((State.reset.setSp 14).sp.toNat + 1) % 256 ≤ 15 ∧
      ((State.reset.setSp 0xFF).sp.toNat + 1) % 256 ≤ 15 ∧
      15 < ((State.reset.setSp 15).sp.toNat + 1) % 256 := by decide

/-- `NestedCallsReturnInReverseOrder`: four calls as in program P7, and the deepest nest from SP = 0. -/
theorem witness_nested :
    ([0x204, 0x208, 0x20C, 0x210] : List (BitVec 12)) ≠ [] ∧ State.reset.sp.toNat + 4 ≤ 15 ∧
      State.reset.sp.toNat + (List.replicate 15 (0x300 : BitVec 12)).length ≤ 15 := by decide

/-- `NoKeyMatchesNoKeyCode`: the greatest key code with no key pressed. -/
theorem witness_no_key :
    let s := (regs [(2, 15)]).setKey Config.keyNone
    s.key = Config.keyNone ∧ (s.readV 2).toNat ≤ 15 := ⟨rfl, by decide⟩

/-- The statements on 8xy4 to 8xyE: a destination other than VF, and VF. -/
theorem witness_vf : (14 : Reg) ≠ vf ∧ (15 : Reg) = vf := by decide

/-- `DrawXorsTheSprite`: the last display byte and the last memory byte (G10, G14), with and without
a collision. -/
theorem witness_draw :
    let s := ((regs [(0, 0x3F), (1, 0x1F)]).setI 0xFFF).writeMem 0xFFF [0xAA]
    let idx := fun r => (s.readV 0).toNat / 8 + ((s.readV 1).toNat + r) * 8
    (∀ r < (1 : Nibble).toNat, s.i.toNat + r ≤ 0xFFF ∧ idx r ≤ 255) ∧ idx 0 = 255 ∧
      (∀ r < (1 : Nibble).toNat, s.readDisp (idx r) &&& s.readMem (s.i.toNat + r) = 0) ∧
      ∃ r < (1 : Nibble).toNat,
        (s.writeDisp 255 0x80).readDisp (idx r) &&& s.readMem (s.i.toNat + r) ≠ 0 := by
  decide +kernel

/-- `DrawFaultsAtTheFirstBadRow`: row 1 the first bad one, by its address (G13) or by its index (G9). -/
theorem witness_draw_faults :
    let good := fun (s : State) (r : Nat) =>
      s.i.toNat + r ≤ 0xFFF ∧ (s.readV 0).toNat / 8 + ((s.readV 1).toNat + r) * 8 ≤ 255
    let s := State.reset.setI 0xFFF
    let t := (regs [(1, 0x1F)]).setI 0x300
    1 < (2 : Nibble).toNat ∧ (∀ q < 1, good s q) ∧ 0xFFF < s.i.toNat + 1 ∧ (∀ q < 1, good t q) ∧
      t.i.toNat + 1 ≤ 0xFFF ∧ 255 < (t.readV 0).toNat / 8 + ((t.readV 1).toNat + 1) * 8 := by
  decide

/-- `DrawingTwiceRestoresTheDisplay`: the document's pair (G2, G3). -/
theorem witness_draw_twice :
    (0 : Reg) ≠ vf ∧ (1 : Reg) ≠ vf ∧ sprite.fault = none ∧
      ∃ t u, exec (.drw 0 1 2) sprite = .next t ∧ t.fault = none ∧ exec (.drw 0 1 2) t = .next u :=
  ⟨by decide, by decide, rfl, _, _, rfl, rfl, rfl⟩

/-- `DecimalDigitsAreStored`: the last legal I and the first beyond it (X11, X12). -/
theorem witness_ldB :
    State.reset.mem.wf = true ∧ (State.reset.setI 0xFFD).i.toNat + 2 ≤ 0xFFF ∧
      0xFFF < (State.reset.setI 0xFFE).i.toNat + 2 := by decide

/-- `RegistersAreStored`, `RegistersAreLoaded`: the last legal I of the widest form and the first
beyond it. -/
theorem witness_transfer :
    State.reset.mem.wf = true ∧ (State.reset.setI 0xFF0).i.toNat + (15 : Reg).val ≤ 0xFFF ∧
      0xFFF < (State.reset.setI 0xFF1).i.toNat + (15 : Reg).val := by decide

/-- `StoredBytesAreFetchedNext`: an instruction that stores over itself (X22). -/
theorem witness_store_fetch :
    let s := (regs [(0, 0x12), (1, 0x08)]).setI 0x200
    s.mem.wf = true ∧ s.i.toNat + (1 : Reg).val ≤ 0xFFF ∧
      (∃ t, exec (.storeRegs 1) s = .next t) ∧ (1 : Reg).val = (0 : Reg).val + 1 ∧ (1 : Reg) ≤ 1 :=
  ⟨by decide, by decide, ⟨_, rfl⟩, by decide, by decide⟩

/-- `OnlyTheNamedRegistersAreWritten`, `EachArrayHasItsOwnWriters`, `KeyLatchReachesOnlyItsReaders`,
`SoundTimerIsReadByNoInstruction`, `OnlyRandomInstructionDraws`: one instruction in all their
premises. -/
theorem witness_frame :
    let i : Instr := .ldImm 3 7
    (∃ t, exec i State.reset = .next t) ∧ i.writesReg 4 = false ∧ i.writesMem = false ∧
      i.writesDisp = false ∧ i.readsKey = false ∧ i ≠ .ret ∧ (∀ nnn, i ≠ .call nnn) ∧
      (∀ nnn, i ≠ .ldI nnn) ∧ (∀ x, i ≠ .addI x) ∧ (∀ x, i ≠ .ldF x) ∧ (∀ x, i ≠ .ldDtVx x) ∧
      (∀ x, i ≠ .ldStVx x) ∧ ∀ x nn, i ≠ .rnd x nn := by
  refine ⟨⟨_, rfl⟩, rfl, rfl, rfl, rfl, ?_⟩
  refine ⟨?_, ?_, ?_, ?_, ?_, ?_, ?_, ?_⟩ <;> intros <;> exact Instr.noConfusion

/-- `EveryStepKeepsTheInvariant`: a state in the middle of a run, five calls deep. -/
theorem witness_inv : ((State.reset.setSp 5).withFetchWord 16 0x6A2F).Inv :=
  ⟨by decide, .inl (by decide), by decide, by decide, fun r h => by cases h⟩

/-- `RestOnlyRunsTheTimersDown`: a jump to itself at 0x200 (C7). -/
theorem witness_rest : ((State.reset.setDt 9).withFetchWord 16 0x1200).atRest := ⟨0x200, rfl, rfl⟩

end Sys2Proof.Tests
end

section
/-! PROOFS. Reset (10_state.md R34): when `hostReset` answers a state, that it leaves everything but
memory as in `State.reset`, and what every address of memory then reads. -/

namespace Sys2Proof.Machine

/-! ### The blank state -/

/-- Outside the font area the contents memory starts from are 0 (R27). -/
theorem initByte_eq_zero_of_le {a : Nat} (ha : 80 ≤ a) : initByte a = 0 :=
  List.getD_eq_default fontBytes 0 ha

@[simp] theorem State.readV_reset (x : Reg) : State.reset.readV x = 0 :=
  Vector.getElem_replicate x.isLt

@[simp] theorem State.readDisp_reset (k : Nat) : State.reset.readDisp k = 0 :=
  State.reset.readDisp_clearDisp k

theorem State.readStack_reset {k : Nat} (hk : k < 16) : State.reset.readStack k = some 0 := by
  rw [State.reset.readStack_of_le hk]
  exact congrArg some (Vector.getElem_replicate hk)

/-! ### Stores of consecutive bytes -/

/-- A store of consecutive existing bytes reads back byte for byte; every other address is as before
(20_memory.md R60). -/
theorem State.readMem_writeMem {s : State} {a : Nat} {us : List Byte} (hm : s.mem.wf = true)
    (ha : a + us.length ≤ Config.memSize) (b : Nat) :
    (s.writeMem a us).readMem b =
      if a ≤ b ∧ b < a + us.length then us.getD (b - a) 0 else s.readMem b :=
  Memory.read_writeBytes us hm ha b

/-! ### The reset of the host -/

section HostReset

variable {rom : List Byte} {font : Vector Byte 80} {s : State}

/-- Reset answers a state exactly for a ROM that fits: font, then ROM, over the blank state (R34). -/
theorem hostReset_eq_ok_iff :
    hostReset rom font = .ok s ↔ rom.length ≤ 3584 ∧
      (State.reset.writeMem 0 font.toList).writeMem Config.progBase rom = s := by
  rw [← romFits_iff, hostReset]
  by_cases hfits : romFits rom = true
  · simp [hfits]
  · simp [hfits]

/-- An oversized ROM gives no machine (R34; 70_reset_and_hazards.md R232). -/
theorem hostReset_of_oversized (h : 3584 < rom.length) :
    hostReset rom font = .error .malformedRom :=
  if_neg fun hfits => absurd ((romFits_iff rom).mp hfits) (by omega)

/-- Reset sets everything but memory as `State.reset` does. -/
theorem hostReset_frame (h : hostReset rom font = .ok s) : s = { State.reset with mem := s.mem } := by
  obtain ⟨-, rfl⟩ := hostReset_eq_ok_iff.mp h
  rfl

/-- The font fits below the ROM, so placing it keeps memory canonical. -/
theorem wf_mem_writeMem_font (font : Vector Byte 80) :
    (State.reset.writeMem 0 font.toList).mem.wf = true :=
  Memory.wf_writeBytes font.toList Memory.wf_reset (by simp [Config.memSize])

/-- What each address holds after reset: the ROM from 0x200, the font below 80, 0 elsewhere (R34). -/
theorem readMem_of_hostReset (h : hostReset rom font = .ok s) (a : Nat) :
    s.readMem a =
      if 0x200 ≤ a ∧ a < 0x200 + rom.length then rom.getD (a - 0x200) 0
      else if a < 80 then font.toList.getD a 0 else 0 := by
  obtain ⟨hlen, rfl⟩ := hostReset_eq_ok_iff.mp h
  have hrom : Config.progBase + rom.length ≤ Config.memSize := by
    simp only [Config.progBase, Config.memSize]
    omega
  have hfont : 0 + font.toList.length ≤ Config.memSize := by simp [Config.memSize]
  have hblank : 80 ≤ a → State.reset.readMem a = 0 := initByte_eq_zero_of_le
  rw [State.readMem_writeMem (wf_mem_writeMem_font font) hrom,
    State.readMem_writeMem Memory.wf_reset hfont]
  by_cases hlow : a < 80
  · simp [Config.progBase, hlow]
  · simp [Config.progBase, hlow, hblank (by omega)]

/-! ### What reset leaves in each area of memory -/

theorem readMem_font_of_hostReset (h : hostReset rom font = .ok s) {a : Nat} (ha : a < 80) :
    s.readMem a = font[a] := by
  rw [readMem_of_hostReset h, if_neg (by omega), if_pos ha]
  simp [ha]

theorem readMem_rom_of_hostReset (h : hostReset rom font = .ok s) {j : Nat} (hj : j < rom.length) :
    s.readMem (0x200 + j) = rom[j] := by
  rw [readMem_of_hostReset h, if_pos (by omega), Nat.add_sub_cancel_left]
  exact List.getD_eq_getElem rom 0 hj

/-- Between the font and the ROM, and above the ROM, memory is 0. -/
theorem readMem_eq_zero_of_hostReset (h : hostReset rom font = .ok s) {a : Nat} (hfont : 80 ≤ a)
    (hrom : a ≤ 0x1FF ∨ 0x200 + rom.length ≤ a) : s.readMem a = 0 := by
  rw [readMem_of_hostReset h, if_neg (by omega), if_neg (by omega)]

end HostReset

/-! ### The obligation -/

/-- Settles O1: everything but memory is that of `State.reset`, and memory is read area by area. -/
theorem resetLeavesTheTabledValues : Obligations.ResetLeavesTheTabledValues := by
  intro rom font
  refine ⟨fun hlen => ?_, hostReset_of_oversized⟩
  obtain ⟨s, hs⟩ : ∃ s, hostReset rom font = .ok s := ⟨_, hostReset_eq_ok_iff.mpr ⟨hlen, rfl⟩⟩
  have hframe := hostReset_frame hs
  have hv : ∀ x, s.readV x = 0 := by rw [hframe]; exact State.readV_reset
  have hstack : ∀ k < 16, s.readStack k = some 0 := by
    rw [hframe]; exact fun k hk => State.readStack_reset hk
  have hdisp : ∀ k < 256, s.readDisp k = 0 := by
    rw [hframe]; exact fun k _ => State.readDisp_reset k
  refine ⟨s, hs, hv, ?i, ?pc, ?sp, hstack, ?dt, ?st, ?font, ?gap, ?rom, ?above, hdisp, ?fault⟩
  case font => exact fun a ha => readMem_font_of_hostReset hs ha
  case gap => exact fun a hlo hhi => readMem_eq_zero_of_hostReset hs hlo (.inl hhi)
  case rom => exact fun j hj => readMem_rom_of_hostReset hs hj
  case above => exact fun a ha _ => readMem_eq_zero_of_hostReset hs (by omega) (.inr ha)
  all_goals rw [hframe]; rfl

end Sys2Proof.Machine
end

section
/-! PROOFS. The decoder against the mask and match table (30_encoding.md R84). A family (first nibble)
fixes which bits of the word select the instruction; the mask of every row is exactly these bits of its
family. So a word matches a row when its selecting bits are the row's value, and those bits alone
decide which mnemonic the decoder answers. -/

namespace Sys2Proof

/-! ### The word of a decoded instruction -/

theorem eq_ofNat_of_toNat {m k : Nat} {a : BitVec m} (h : a.toNat = k) : a = BitVec.ofNat m k := by
  rw [← h, BitVec.ofNat_toNat, BitVec.setWidth_eq]

section Encode

variable {n1 n2 n3 n4 : Nibble} {x y : Reg} {low : Byte} {i : Instr} {w : Word}

/-- `NNN` and `XYN` lay the same four nibbles out in the same way (R82). -/
theorem formatNnn_immAddr (n1 n2 n3 n4 : Nibble) :
    formatNnn n1 (immAddr n2 n3 n4) = formatXyn n1 (regOf n2) (regOf n3) n4 := by
  apply BitVec.eq_of_toNat_eq
  rw [toNat_formatNnn, toNat_immAddr, toNat_formatXyn, val_regOf, val_regOf]
  omega

/-- `XNN` and `XYN` lay the same four nibbles out in the same way (R82). -/
theorem formatXnn_immByte (n1 n2 n3 n4 : Nibble) :
    formatXnn n1 (regOf n2) (immByte n3 n4) = formatXyn n1 (regOf n2) (regOf n3) n4 := by
  apply BitVec.eq_of_toNat_eq
  rw [toNat_formatXnn, toNat_immByte, toNat_formatXyn, val_regOf, val_regOf]
  omega

theorem formatXyn_nibbles (w : Word) :
    formatXyn (nibble1 w) (regOf (nibble2 w)) (regOf (nibble3 w)) (nibble4 w) = w := by
  apply BitVec.eq_of_toNat_eq
  rw [toNat_formatXyn, val_regOf, val_regOf, toNat_nibble1, toNat_nibble2, toNat_nibble3,
    toNat_nibble4]
  omega

theorem encode_of_decodeFixed (h : decodeFixed n2 n3 n4 = some i) :
    encode i = formatNnn 0x0 (immAddr n2 n3 n4) := by
  unfold decodeFixed at h
  split at h <;> cases h
  all_goals exact congrArg (formatNnn 0x0) (eq_ofNat_of_toNat ‹_›).symm

theorem encode_of_decodeAlu (h : decodeAlu x y n4 = some i) : encode i = formatXyn 0x8 x y n4 := by
  unfold decodeAlu at h
  split at h <;> cases h
  all_goals exact congrArg (formatXyn 0x8 x y) (eq_ofNat_of_toNat ‹_›).symm

theorem encode_of_decodeKeySkip (h : decodeKeySkip x low = some i) :
    encode i = formatXnn 0xE x low := by
  unfold decodeKeySkip at h
  split at h <;> cases h
  all_goals exact congrArg (formatXnn 0xE x) (eq_ofNat_of_toNat ‹_›).symm

theorem encode_of_decodeMisc (h : decodeMisc x low = some i) : encode i = formatXnn 0xF x low := by
  unfold decodeMisc at h
  split at h <;> cases h
  all_goals exact congrArg (formatXnn 0xF x) (eq_ofNat_of_toNat ‹_›).symm

/-- No nibble of a decoded tuple is lost. -/
theorem encode_of_decodeNibbles (h : decodeNibbles n1 n2 n3 n4 = some i) :
    encode i = formatXyn n1 (regOf n2) (regOf n3) n4 := by
  unfold decodeNibbles at h
  split at h
  case h_17 => cases h
  all_goals obtain rfl := eq_ofNat_of_toNat ‹n1.toNat = _›
  case h_1 => exact (encode_of_decodeFixed h).trans (formatNnn_immAddr ..)
  case h_9 => exact encode_of_decodeAlu h
  case h_15 => exact (encode_of_decodeKeySkip h).trans (formatXnn_immByte ..)
  case h_16 => exact (encode_of_decodeMisc h).trans (formatXnn_immByte ..)
  case h_6 | h_10 =>
    obtain ⟨rfl, hi⟩ := Option.ite_none_right_eq_some.mp h
    cases hi
    rfl
  all_goals cases h
  case h_2 | h_3 | h_11 | h_12 => exact formatNnn_immAddr ..
  case h_4 | h_5 | h_7 | h_8 | h_13 => exact formatXnn_immByte ..
  case h_14 => rfl

/-- No bit of a legal word is lost, the `y` that 8xy6 and 8xyE ignore among them (R88). -/
theorem encode_of_decodeWord (h : decodeWord w = .ok i) : encode i = w :=
  (encode_of_decodeNibbles (decodeWord_eq_ok.mp h)).trans (formatXyn_nibbles w)

end Encode

/-! ### The bits that select the instruction -/

/-- The bits by which a word of family `n1` is told from the other instructions of the family. -/
def selectingBits (n1 : Nibble) : Word :=
  match n1.toNat with
  | 0x0 => 0xFFFF
  | 0x5 | 0x8 | 0x9 => 0xF00F
  | 0xE | 0xF => 0xF0FF
  | _ => 0xF000

/-- A word with every bit cleared that does not select its instruction. -/
def selector (w : Word) : Word := w &&& selectingBits (nibble1 w)

/-- The mnemonic the decoder answers a word with, if it answers one. -/
def decodedMnemonic (w : Word) : Option String :=
  (decodeNibbles (nibble1 w) (nibble2 w) (nibble3 w) (nibble4 w)).map Instr.mnemonic

theorem decodedMnemonic_eq_some {w : Word} {name : String} :
    decodedMnemonic w = some name ↔ ∃ i, decodeWord w = .ok i ∧ i.mnemonic = name := by
  simp only [decodedMnemonic, Option.map_eq_some_iff, decodeWord_eq_ok]

theorem nibble1_and (w m : Word) : nibble1 (w &&& m) = nibble1 w &&& nibble1 m :=
  BitVec.extractLsb'_and

theorem nibble2_and (w m : Word) : nibble2 (w &&& m) = nibble2 w &&& nibble2 m :=
  BitVec.extractLsb'_and

theorem nibble3_and (w m : Word) : nibble3 (w &&& m) = nibble3 w &&& nibble3 m :=
  BitVec.extractLsb'_and

theorem nibble4_and (w m : Word) : nibble4 (w &&& m) = nibble4 w &&& nibble4 m :=
  BitVec.extractLsb'_and

/-- The family always selects. -/
theorem nibble1_selectingBits (n1 : Nibble) : nibble1 (selectingBits n1) = BitVec.allOnes 4 := by
  decide +revert

@[simp] theorem nibble1_and_selectingBits (w : Word) (n1 : Nibble) :
    nibble1 (w &&& selectingBits n1) = nibble1 w := by
  rw [nibble1_and, nibble1_selectingBits, BitVec.and_allOnes]

/-! ### The decoder looks at no other bit to choose the mnemonic -/

section Mnemonic

variable (x x' y y' : Reg) (n4 : Nibble) (low : Byte)

theorem mnemonic_decodeAlu_congr :
    (decodeAlu x y n4).map Instr.mnemonic = (decodeAlu x' y' n4).map Instr.mnemonic := by
  unfold decodeAlu
  split <;> rfl

theorem mnemonic_decodeKeySkip_congr :
    (decodeKeySkip x low).map Instr.mnemonic = (decodeKeySkip x' low).map Instr.mnemonic := by
  unfold decodeKeySkip
  split <;> rfl

theorem mnemonic_decodeMisc_congr :
    (decodeMisc x low).map Instr.mnemonic = (decodeMisc x' low).map Instr.mnemonic := by
  unfold decodeMisc
  split <;> rfl

end Mnemonic

/-- In each family, clearing the nibbles that do not select leaves the mnemonic. -/
theorem mnemonic_decodeNibbles_and_selectingBits (n1 n2 n3 n4 : Nibble) :
    (decodeNibbles n1 (n2 &&& nibble2 (selectingBits n1)) (n3 &&& nibble3 (selectingBits n1))
      (n4 &&& nibble4 (selectingBits n1))).map Instr.mnemonic =
      (decodeNibbles n1 n2 n3 n4).map Instr.mnemonic := by
  -- Each `change` below evaluates the family's selecting nibbles, 0xF where they are kept.
  have hkept (n : Nibble) : n &&& 0xF#4 = n := BitVec.and_allOnes
  unfold decodeNibbles
  split
  case h_17 => rfl
  all_goals obtain rfl := eq_ofNat_of_toNat ‹n1.toNat = _›
  case h_1 =>
    change (decodeFixed (n2 &&& 0xF#4) (n3 &&& 0xF#4) (n4 &&& 0xF#4)).map _ = _
    simp only [hkept]
  case h_9 =>
    change (decodeAlu _ _ (n4 &&& 0xF#4)).map _ = _
    rw [hkept]
    exact mnemonic_decodeAlu_congr ..
  case h_15 =>
    change (decodeKeySkip _ (immByte (n3 &&& 0xF#4) (n4 &&& 0xF#4))).map _ = _
    rw [hkept, hkept]
    exact mnemonic_decodeKeySkip_congr ..
  case h_16 =>
    change (decodeMisc _ (immByte (n3 &&& 0xF#4) (n4 &&& 0xF#4))).map _ = _
    rw [hkept, hkept]
    exact mnemonic_decodeMisc_congr ..
  case h_6 | h_10 =>
    change (if n4 &&& 0xF#4 = 0 then some _ else none).map _ = _
    rw [hkept]
    split <;> rfl
  all_goals rfl

theorem decodedMnemonic_selector (w : Word) : decodedMnemonic (selector w) = decodedMnemonic w := by
  rw [decodedMnemonic, selector, nibble1_and_selectingBits, nibble2_and, nibble3_and, nibble4_and]
  exact mnemonic_decodeNibbles_and_selectingBits ..

/-! ### The rows of the table -/

/-- The mask of every row is the selecting bits of the row's family. -/
theorem mask_eq_selectingBits :
    ∀ row ∈ opcodeTable, row.mask = selectingBits (nibble1 row.value) := by decide

/-- The word of a row in which every operand bit is 0 decodes to the row's mnemonic. -/
theorem decodedMnemonic_value :
    ∀ row ∈ opcodeTable, decodedMnemonic row.value = some row.mnemonic := by decide

/-- No two rows have one value. -/
theorem opcodeTable_pairwise_value_ne : opcodeTable.Pairwise (fun r q => r.value ≠ q.value) := by
  decide

/-- A word matches a row when its selecting bits are the row's value. -/
theorem selector_eq_value_of_match {w : Word} {row : OpRow} (hrow : row ∈ opcodeTable)
    (h : w &&& row.mask = row.value) : selector w = row.value := by
  rw [mask_eq_selectingBits row hrow] at h
  have hfamily : nibble1 row.value = nibble1 w := by rw [← h, nibble1_and_selectingBits]
  rwa [hfamily] at h

/-- No two rows overlap: a word's selecting bits are one value only. -/
theorem opcodeTable_pairwise_disjoint :
    opcodeTable.Pairwise fun r q => ∀ w : Word, ¬(w &&& r.mask = r.value ∧ w &&& q.mask = q.value) := by
  refine opcodeTable_pairwise_value_ne.imp_of_mem fun hr hq hne w ⟨hwr, hwq⟩ => hne ?_
  rw [← selector_eq_value_of_match hr hwr, selector_eq_value_of_match hq hwq]

/-- A word that matches a row decodes to the row's mnemonic. -/
theorem decodedMnemonic_of_match {w : Word} {row : OpRow} (hrow : row ∈ opcodeTable)
    (h : w &&& row.mask = row.value) : decodedMnemonic w = some row.mnemonic := by
  rw [← decodedMnemonic_selector, selector_eq_value_of_match hrow h, decodedMnemonic_value row hrow]

/-! ### A row for every instruction -/

open Laws in
/-- The word of every instruction is legal and matches the instruction's own row. -/
theorem legalEncoding : ∀ i : Instr, LegalEncoding.Statement i
  | .cls => LegalEncoding.cls
  | .ret => LegalEncoding.ret
  | .jp nnn => LegalEncoding.jp nnn
  | .call nnn => LegalEncoding.call nnn
  | .seImm x nn => LegalEncoding.seImm x nn
  | .sneImm x nn => LegalEncoding.sneImm x nn
  | .seReg x y => LegalEncoding.seReg x y
  | .ldImm x nn => LegalEncoding.ldImm x nn
  | .addImm x nn => LegalEncoding.addImm x nn
  | .ldReg x y => LegalEncoding.ldReg x y
  | .orReg x y => LegalEncoding.orReg x y
  | .andReg x y => LegalEncoding.andReg x y
  | .xorReg x y => LegalEncoding.xorReg x y
  | .addReg x y => LegalEncoding.addReg x y
  | .subReg x y => LegalEncoding.subReg x y
  | .shr x y => LegalEncoding.shr x y
  | .subnReg x y => LegalEncoding.subnReg x y
  | .shl x y => LegalEncoding.shl x y
  | .sneReg x y => LegalEncoding.sneReg x y
  | .ldI nnn => LegalEncoding.ldI nnn
  | .jpV0 nnn => LegalEncoding.jpV0 nnn
  | .rnd x nn => LegalEncoding.rnd x nn
  | .drw x y n => LegalEncoding.drw x y n
  | .skp x => LegalEncoding.skp x
  | .sknp x => LegalEncoding.sknp x
  | .ldVxDt x => LegalEncoding.ldVxDt x
  | .ldVxK x => LegalEncoding.ldVxK x
  | .ldDtVx x => LegalEncoding.ldDtVx x
  | .ldStVx x => LegalEncoding.ldStVx x
  | .addI x => LegalEncoding.addI x
  | .ldF x => LegalEncoding.ldF x
  | .ldB x => LegalEncoding.ldB x
  | .storeRegs x => LegalEncoding.storeRegs x
  | .loadRegs x => LegalEncoding.loadRegs x

/-- Every word that decodes matches a row. -/
theorem exists_match_of_decodeWord {w : Word} {i : Instr} (h : decodeWord w = .ok i) :
    ∃ row ∈ opcodeTable, w &&& row.mask = row.value := by
  obtain ⟨-, row, hrow, -, hmatch⟩ := legalEncoding i
  rw [encode_of_decodeWord h] at hmatch
  exact ⟨row, hrow, hmatch⟩

/-- A word is refused when it does not decode. -/
theorem decodeWord_eq_error_of_ne_ok {w : Word} (h : ∀ i, decodeWord w ≠ .ok i) :
    decodeWord w = .error (.illegalInstruction w) := by
  simp only [ne_eq, decodeWord_eq_ok] at h
  exact decodeWord_eq_error.mpr ⟨Option.eq_none_iff_forall_ne_some.mpr h, rfl⟩

/-! ### The obligation -/

/-- Settles O6: a matching word has its row's selecting bits, so it decodes as the row's value does; a
decoded word is its instruction's encoding, which has a row. -/
theorem decodeMatchesTheOpcodeTable : Obligations.DecodeMatchesTheOpcodeTable := by
  refine ⟨rfl, opcodeTable_pairwise_disjoint, ?_, ?_⟩
  · intro w row hrow hmatch
    obtain ⟨i, hi, hname⟩ := decodedMnemonic_eq_some.mp (decodedMnemonic_of_match hrow hmatch)
    exact ⟨i, hi, hname, encode_of_decodeWord hi⟩
  · intro w hnone
    refine decodeWord_eq_error_of_ne_ok fun i hi => ?_
    obtain ⟨row, hrow, hmatch⟩ := exists_match_of_decodeWord hi
    exact hnone row hrow hmatch

end Sys2Proof
end

section
/-! PROOFS. The step of a state that runs an instruction (40_step_cycle.md R100, R106): execute, then
the timer phase where execute raised no fault. -/

namespace Sys2Proof.Machine

variable {s u : State} {i : Instr}

/-- The timer phase counts down where execute raised no fault (R106, R107). -/
theorem finishStep_of_no_fault (hu : u.fault = none) : finishStep (.next u) = .next u.tick :=
  congrArg Host.Outcome.next (if_pos hu)

/-- Fetch and decode of a state that runs `i` come to `i`. -/
theorem State.fetchDecode_of_runs (h : s.runs i) : s.fetchDecode = .run i :=
  s.fetchDecode_eq_run.mpr h

/-- The step of a state that runs `i` executes `i`, then ends the step (R100). -/
theorem step_of_runs (h : s.runs i) : step s = finishStep (exec i s) := by
  rw [step, State.fetchDecode_of_runs h]

/-- The step after an execution that raised no fault. -/
theorem step_of_runs_of_no_fault (h : s.runs i) (hexec : exec i s = .next u)
    (hu : u.fault = none) : step s = .next u.tick := by
  rw [step_of_runs h, hexec, finishStep_of_no_fault hu]

/-- Settles O16: the step ends in the timer phase, which counts each timer down and writes nothing
else. -/
theorem timersCountDownAfterExecute : Obligations.TimersCountDownAfterExecute := by
  intro s u i hruns hexec hu
  exact ⟨u.tick, step_of_runs_of_no_fault hruns hexec hu, toNat_countDown u.dt,
    toNat_countDown u.st, rfl⟩

end Sys2Proof.Machine
end

section
/-! PROOFS. The unconditional jump (41_control_flow.md R121), with the two facts every jump turns on: a
12-bit target keeps its number as an address, and setting PC leaves the rest of the state alone. -/

namespace Sys2Proof.Machine

/-- A 12-bit target is the same number as a 16-bit address. -/
@[simp] theorem toNat_zext16 (nnn : BitVec 12) : (zext16 nnn).toNat = nnn.toNat :=
  BitVec.toNat_setWidth_of_le (by decide)

/-- Setting PC changes nothing but PC, memory read byte by byte included. -/
theorem State.onlyPc_setPc (s : State) (w : Word) : s.onlyPc (s.setPc w) :=
  ⟨rfl, s.readMem_setPc w⟩

/-- What 1nnn does (R121). -/
theorem exec_jp (nnn : BitVec 12) (s : State) : exec (.jp nnn) s = .next (s.setPc (zext16 nnn)) :=
  rfl

/-- Settles O19: 1nnn only sets PC, to the target as an address, which is the target's own number. -/
theorem jumpLandsOnItsTarget : Obligations.JumpLandsOnItsTarget := by
  intro nnn s
  exact ⟨s.setPc (zext16 nnn), exec_jp nnn s, toNat_zext16 nnn, s.onlyPc_setPc (zext16 nnn)⟩

end Sys2Proof.Machine
end

section
/-! PROOFS. The conditional skips (42_skips.md). All six instructions are one operation, `skipIf`, on a
comparison of their own; so what a skip does to PC and what it leaves alone is said once, for a test
that decides any proposition. -/

namespace Sys2Proof.Machine

/-! ### The shared operation -/

/-- A skip sets PC and nothing else. -/
theorem State.onlyPc_skipIf (s : State) (c : Bool) : s.onlyPc (s.skipIf c) :=
  s.onlyPc_setPc _

/-- PC after a skip whose test decides `p`: 4 further if `p` holds, otherwise 2 (R104, R105). -/
theorem State.toNat_pc_skipIf (s : State) {c : Bool} {p : Prop} [Decidable p] (hc : c = true ↔ p) :
    (s.skipIf c).pc.toNat = (s.pc.toNat + if p then 4 else 2) % 65536 := by
  by_cases hp : p
  · rw [skipIf_pc, if_pos (hc.mpr hp), if_pos hp, BitVec.toNat_add]
    rfl
  · rw [skipIf_pc, if_neg (mt hc.mp hp), if_neg hp, BitVec.toNat_add]
    rfl

/-- An instruction that is a skip on a test of `p` moves PC by `p` and changes nothing else. -/
theorem exec_skip_spec {i : Instr} {s : State} {c : Bool} {p : Prop} [Decidable p]
    (hexec : exec i s = .next (s.skipIf c)) (hc : c = true ↔ p) :
    ∃ t, exec i s = .next t ∧ s.onlyPc t ∧
      t.pc.toNat = (s.pc.toNat + if p then 4 else 2) % 65536 :=
  ⟨s.skipIf c, hexec, s.onlyPc_skipIf c, s.toNat_pc_skipIf hc⟩

/-! ### The test of each instruction -/

section Exec

variable (x y : Reg) (nn : Byte) (s : State)

/-- What 3xnn does (R130). -/
theorem exec_seImm : exec (.seImm x nn) s = .next (s.skipIf (s.readV x == nn)) := rfl

/-- What 4xnn does (R131). -/
theorem exec_sneImm : exec (.sneImm x nn) s = .next (s.skipIf (s.readV x != nn)) := rfl

/-- What 5xy0 does (R132). -/
theorem exec_seReg : exec (.seReg x y) s = .next (s.skipIf (s.readV x == s.readV y)) := rfl

/-- What 9xy0 does (R133). -/
theorem exec_sneReg : exec (.sneReg x y) s = .next (s.skipIf (s.readV x != s.readV y)) := rfl

/-- What Ex9E does (R134). -/
theorem exec_skp : exec (.skp x) s = .next (s.skipIf (s.key == s.readV x)) := rfl

/-- What ExA1 does (R135). -/
theorem exec_sknp : exec (.sknp x) s = .next (s.skipIf (s.key != s.readV x)) := rfl

end Exec

/-! ### The obligations -/

/-- Settles O24: both are skips, one on the equality of register and immediate, one on its negation. -/
theorem skipsCompareWithTheImmediate : Obligations.SkipsCompareWithTheImmediate := by
  intro x nn s
  constructor
  · exact exec_skip_spec (exec_seImm x nn s) beq_iff_eq
  · exact exec_skip_spec (exec_sneImm x nn s) bne_iff_ne

/-- Settles O25: both are skips, one on the equality of the two registers, one on its negation. -/
theorem skipsCompareTwoRegisters : Obligations.SkipsCompareTwoRegisters := by
  intro x y s
  constructor
  · exact exec_skip_spec (exec_seReg x y s) beq_iff_eq
  · exact exec_skip_spec (exec_sneReg x y s) bne_iff_ne

/-- Settles O26: both are skips, one on the equality of latch and register as whole bytes, one on its
negation. -/
theorem skipsCompareWithTheKeyLatch : Obligations.SkipsCompareWithTheKeyLatch := by
  intro x s
  constructor
  · exact exec_skip_spec (exec_skp x s) beq_iff_eq
  · exact exec_skip_spec (exec_sknp x s) bne_iff_ne

end Sys2Proof.Machine
end

section
/-! PROOFS. The immediates 6xnn, 7xnn and Annn (43_immediate_random.md). Each writes one register, V[x]
or I, and advances; so what such a pair of writes does and leaves alone is said once for any value. -/

namespace Sys2Proof.Machine

variable (s : State)

/-! ### One register written, then the advance -/

/-- The advance of a state that still has the PC of `s` (R104). -/
theorem State.advanced_advance {s u : State} (hpc : u.pc = s.pc) : s.advanced u.advance := by
  rw [advanced, advance_pc, hpc, BitVec.toNat_add]
  rfl

/-- A register reads back what was just written to it (R20). -/
theorem State.readV_writeV_self (x : Reg) (b : Byte) : (s.writeV x b).readV x = b := by
  rw [readV_writeV, if_pos rfl]

/-- Registers outside a list that holds `x` read as before a write to `x`. -/
theorem State.sameRegsBut_writeV {x : Reg} {ks : List Reg} (hx : x ∈ ks) (b : Byte) :
    s.sameRegsBut (s.writeV x b) ks := by
  intro k hk
  have hkx : k ≠ x := fun h => hk (h ▸ hx)
  rw [readV_writeV, if_neg hkx]

/-- A write to one register, then the advance: PC is 2 further and only that register differs. -/
theorem State.writeV_advance_frame (x : Reg) (b : Byte) :
    s.advanced (s.writeV x b).advance ∧ s.sameRegsBut (s.writeV x b).advance [x] ∧
      s.onlyRegsAndPc (s.writeV x b).advance := by
  refine ⟨advanced_advance (s.writeV_pc x b), ?_, rfl, fun _ => rfl⟩
  exact s.sameRegsBut_writeV (List.mem_singleton_self x) b

/-- A write to I, then the advance: PC is 2 further and nothing else differs. -/
theorem State.setI_advance_frame (w : Word) :
    s.advanced (s.setI w).advance ∧ s.onlyIAndPc (s.setI w).advance :=
  ⟨advanced_advance (s.setI_pc w), rfl, fun _ => rfl⟩

/-! ### What each instruction writes -/

/-- What 6xnn does (R140). -/
theorem exec_ldImm (x : Reg) (nn : Byte) :
    exec (.ldImm x nn) s = .next (s.writeV x nn).advance := rfl

/-- What 7xnn does (R141). -/
theorem exec_addImm (x : Reg) (nn : Byte) :
    exec (.addImm x nn) s = .next (s.writeV x (s.readV x + nn)).advance := rfl

/-- What Annn does (R142). -/
theorem exec_ldI (nnn : BitVec 12) : exec (.ldI nnn) s = .next (s.setI (zext16 nnn)).advance := rfl

/-! ### The obligations -/

/-- Settles O28: the byte written to V[x] is the immediate. -/
theorem loadImmediateWritesTheByte : Obligations.LoadImmediateWritesTheByte := by
  intro x nn s
  exact ⟨_, exec_ldImm s x nn, s.readV_writeV_self x nn, s.writeV_advance_frame x nn⟩

/-- Settles O29: the byte written to V[x] is the 8-bit sum, which is the sum of the numbers modulo 256;
VF is among the registers left alone unless it is V[x]. -/
theorem addImmediateWrapsWithoutFlag : Obligations.AddImmediateWrapsWithoutFlag := by
  intro x nn s
  refine ⟨_, exec_addImm s x nn, ?_, s.writeV_advance_frame x (s.readV x + nn)⟩
  rw [State.readV_advance, State.readV_writeV_self, BitVec.toNat_add]

/-- Settles O30: the address written to I is the 12-bit immediate, which keeps its number. -/
theorem loadIndexWritesTheAddress : Obligations.LoadIndexWritesTheAddress := by
  intro nnn s
  exact ⟨_, exec_ldI s nnn, toNat_zext16 nnn, s.setI_advance_frame (zext16 nnn)⟩

end Sys2Proof.Machine
end

section
/-! PROOFS. The register-to-register operations that write no flag: 8xy0 to 8xy3 (44_alu.md). Each writes
one byte, its own function of V[x] and V[y], to V[x] and advances; so what such an instruction does is
said once for any byte. -/

namespace Sys2Proof.Machine

/-! ### The shared shape -/

/-- An instruction that writes `b` to V[x] and advances leaves `b` there and changes no other register
and nothing else but PC. -/
theorem exec_writeV_spec {i : Instr} {s : State} {x : Reg} {b : Byte}
    (hexec : exec i s = .next (s.writeV x b).advance) :
    ∃ t, exec i s = .next t ∧ t.readV x = b ∧
      s.advanced t ∧ s.sameRegsBut t [x] ∧ s.onlyRegsAndPc t :=
  ⟨_, hexec, s.readV_writeV_self x b, s.writeV_advance_frame x b⟩

/-! ### The byte each instruction writes -/

section Exec

variable (x y : Reg) (s : State)

/-- What 8xy0 does (R150): on this hardware an add. -/
theorem exec_ldReg :
    exec (.ldReg x y) s = .next (s.writeV x (s.readV x + s.readV y)).advance := rfl

/-- What 8xy1 does (R151). -/
theorem exec_orReg :
    exec (.orReg x y) s = .next (s.writeV x (s.readV x ||| s.readV y)).advance := rfl

/-- What 8xy2 does (R152). -/
theorem exec_andReg :
    exec (.andReg x y) s = .next (s.writeV x (s.readV x &&& s.readV y)).advance := rfl

/-- What 8xy3 does (R153). -/
theorem exec_xorReg :
    exec (.xorReg x y) s = .next (s.writeV x (s.readV x ^^^ s.readV y)).advance := rfl

end Exec

/-! ### The obligations -/

/-- Settles O32: the byte written to V[x] is the 8-bit sum, which is the sum of the numbers modulo 256;
VF is among the registers left alone unless it is V[x]. -/
theorem loadRegisterAddsWithoutFlag : Obligations.LoadRegisterAddsWithoutFlag := by
  intro x y s
  obtain ⟨t, hexec, hsum, hframe⟩ := exec_writeV_spec (exec_ldReg x y s)
  refine ⟨t, hexec, ?_, hframe⟩
  rw [hsum, BitVec.toNat_add]

/-- Settles O33: each writes its bitwise function of the two registers to V[x]; VF is among the registers
left alone unless it is V[x]. -/
theorem bitwiseOperationsLeaveTheFlag : Obligations.BitwiseOperationsLeaveTheFlag := by
  intro x y s
  refine ⟨?_, ?_, ?_⟩
  · exact exec_writeV_spec (exec_orReg x y s)
  · exact exec_writeV_spec (exec_andReg x y s)
  · exact exec_writeV_spec (exec_xorReg x y s)

end Sys2Proof.Machine
end

section
/-! PROOFS. Clearing the display (45_display.md R170): what 00E0 does, and what clearing the display and
then advancing leaves alone. -/

namespace Sys2Proof.Machine

variable (s : State)

/-- What 00E0 does (R170). -/
theorem exec_cls : exec .cls s = .next s.clearDisp.advance := rfl

/-- The display cleared, then the advance: PC is 2 further and only the display differs. -/
theorem State.clearDisp_advance_frame :
    s.advanced s.clearDisp.advance ∧
      s.clearDisp.advance =
        { s with disp := s.clearDisp.advance.disp, pc := s.clearDisp.advance.pc } ∧
      s.sameMem s.clearDisp.advance :=
  ⟨advanced_advance s.clearDisp_pc, rfl, fun _ => rfl⟩

/-- Settles O37: every byte of a cleared display reads 0, and the advance writes none of them. -/
theorem clearBlanksTheDisplay : Obligations.ClearBlanksTheDisplay := by
  intro s
  have hblank : ∀ k < 256, s.clearDisp.advance.readDisp k = 0 := by
    intro k _
    rw [State.readDisp_advance, State.readDisp_clearDisp]
  exact ⟨_, exec_cls s, hblank, s.clearDisp_advance_frame⟩

end Sys2Proof.Machine
end

section
/-! PROOFS. The glyph address (47_index_memory.md R191): five times a byte fits I, and Fx29 writes it
there. -/

namespace Sys2Proof.Machine

/-- Five times a byte is at most 1275, so its 16 bits lose nothing. -/
theorem toNat_glyphAddress (b : Byte) : (glyphAddress b).toNat = b.toNat * 5 := by
  have hfits : b.toNat * 5 < 2 ^ 16 := by omega
  calc (glyphAddress b).toNat
      _ = b.toNat * 5 % 2 ^ 16 := BitVec.toNat_ofNat _ _
      _ = b.toNat * 5 := Nat.mod_eq_of_lt hfits

/-- What Fx29 does (R191). -/
theorem exec_ldF (x : Reg) (s : State) :
    exec (.ldF x) s = .next (s.setI (glyphAddress (s.readV x))).advance := rfl

/-- Settles O44: the address written to I is five times the byte, none of it reduced. -/
theorem glyphAddressIsFiveTimesTheRegister : Obligations.GlyphAddressIsFiveTimesTheRegister := by
  intro x s
  exact ⟨_, exec_ldF x s, toNat_glyphAddress (s.readV x),
    s.setI_advance_frame (glyphAddress (s.readV x))⟩

end Sys2Proof.Machine
end

section
/-! PROOFS. Decode and encode (30_encoding.md R82 to R86). The word of an instruction decodes to it,
format by format; the other way round is `encode_of_decodeWord`. A word that does not decode is on
the list of illegal words, family by family. -/

namespace Sys2Proof

/-! ### Decoding a word laid out in a format -/

section Formats

variable {n1 : Nibble} {i : Instr}

/-- A word of format `NNN` decodes as its family decodes the address. -/
theorem decodeWord_formatNnn {g : BitVec 12 → Instr} (nnn : BitVec 12)
    (hfamily : ∀ n2 n3 n4, decodeNibbles n1 n2 n3 n4 = some (g (immAddr n2 n3 n4))) :
    decodeWord (formatNnn n1 nnn) = .ok (g nnn) := by
  obtain ⟨h1, haddr⟩ := nibbles_formatNnn n1 nnn
  rw [decodeWord_eq_ok, h1, hfamily, haddr]

/-- A word of format `XNN` decodes as its family decodes register and byte. -/
theorem decodeWord_formatXnn {g : Reg → Byte → Option Instr} {x : Reg} {nn : Byte}
    (hfamily : ∀ n2 n3 n4, decodeNibbles n1 n2 n3 n4 = g (regOf n2) (immByte n3 n4))
    (hi : g x nn = some i) : decodeWord (formatXnn n1 x nn) = .ok i := by
  obtain ⟨h1, h2, hbyte⟩ := nibbles_formatXnn n1 x nn
  rw [decodeWord_eq_ok, h1, hfamily, h2, hbyte]
  exact hi

/-- A word of format `XNN`, where the family is one instruction. -/
theorem decodeWord_formatXnn_of_forall {g : Reg → Byte → Instr} (x : Reg) (nn : Byte)
    (hfamily : ∀ n2 n3 n4, decodeNibbles n1 n2 n3 n4 = some (g (regOf n2) (immByte n3 n4))) :
    decodeWord (formatXnn n1 x nn) = .ok (g x nn) :=
  decodeWord_formatXnn (g := fun x nn => some (g x nn)) hfamily rfl

/-- A word of format `XYN` decodes as its four nibbles do. -/
theorem decodeWord_formatXyn {x y : Reg} {n4 : Nibble}
    (hi : decodeNibbles n1 (BitVec.ofFin x) (BitVec.ofFin y) n4 = some i) :
    decodeWord (formatXyn n1 x y n4) = .ok i := by
  obtain ⟨h1, h2, h3, h4⟩ := nibbles_formatXyn n1 x y n4
  rw [decodeWord_eq_ok, h1, h2, h3, h4]
  exact hi

end Formats

/-- The word of every instruction decodes to that instruction. -/
theorem decodeWord_encode (i : Instr) : decodeWord (encode i) = .ok i := by
  cases i
  case cls | ret => decide
  case jp nnn | call nnn | ldI nnn | jpV0 nnn =>
    exact decodeWord_formatNnn nnn fun _ _ _ => rfl
  case seImm x nn | sneImm x nn | ldImm x nn | addImm x nn | rnd x nn =>
    exact decodeWord_formatXnn_of_forall x nn fun _ _ _ => rfl
  case skp x | sknp x => exact decodeWord_formatXnn (g := decodeKeySkip) (fun _ _ _ => rfl) rfl
  case ldVxDt x | ldVxK x | ldDtVx x | ldStVx x | addI x | ldF x | ldB x | storeRegs x
    | loadRegs x =>
    exact decodeWord_formatXnn (g := decodeMisc) (fun _ _ _ => rfl) rfl
  all_goals exact decodeWord_formatXyn rfl

/-- The two bytes of a word, put together again, are the word (R81, 20_memory.md R52). -/
theorem wordOfBytes_extract (w : Word) :
    wordOfBytes (w.extractLsb' 8 8) (w.extractLsb' 0 8) = w := by
  apply BitVec.eq_of_toNat_eq
  rw [toNat_wordOfBytes, BitVec.extractLsb'_toNat, BitVec.extractLsb'_toNat,
    Nat.shiftRight_eq_div_pow, Nat.shiftRight_zero]
  omega

/-- The bytes of every instruction decode to it and leave what follows. -/
theorem decodeBytes_encodeBytes (i : Instr) (rest : List Byte) :
    decodeBytes (encodeBytes i ++ rest) = .ok (i, rest) := by
  simp only [encodeBytes, bytesOfWord, List.cons_append, List.nil_append, decodeBytes,
    wordOfBytes_extract, decodeWord_encode]

/-- Settles O4: each format hands its fields to the decoder unchanged, and the two bytes of a word
are the word again. -/
theorem decodeOfEncodeIsTheInstruction : Obligations.DecodeOfEncodeIsTheInstruction :=
  fun i rest => ⟨decodeWord_encode i, decodeBytes_encodeBytes i rest⟩

/-- Settles O5: no nibble of a decoded word is lost. -/
theorem encodeOfDecodeIsTheWord : Obligations.EncodeOfDecodeIsTheWord :=
  fun _ _ => encode_of_decodeWord

/-! ### The list of illegal words -/

section Illegal

variable {n2 n3 n4 : Nibble} {x y : Reg} {low : Byte} {w : Word}

/-- Family 0 refuses every word but its two. -/
theorem ne_of_decodeFixed_eq_none (h : decodeFixed n2 n3 n4 = none) :
    (immAddr n2 n3 n4).toNat ≠ 0x0E0 ∧ (immAddr n2 n3 n4).toNat ≠ 0x0EE := by
  unfold decodeFixed at h
  split at h
  case h_3 h1 h2 => exact ⟨h1, h2⟩
  all_goals cases h

/-- Family 8 refuses the listed functions only. -/
theorem mem_of_decodeAlu_eq_none (h : decodeAlu x y n4 = none) :
    n4.toNat ∈ [0x8, 0x9, 0xA, 0xB, 0xC, 0xD, 0xF] := by
  unfold decodeAlu at h
  split at h
  case h_10 =>
    simp only [imp_false] at *
    simp only [List.mem_cons, List.not_mem_nil, or_false]
    omega
  all_goals cases h

/-- Family E refuses every low byte but its two functions. -/
theorem not_mem_of_decodeKeySkip_eq_none (h : decodeKeySkip x low = none) :
    low.toNat ∉ [0x9E, 0xA1] := by
  unfold decodeKeySkip at h
  split at h
  case h_3 => simp_all
  all_goals cases h

/-- Family F refuses every low byte but its nine functions. -/
theorem not_mem_of_decodeMisc_eq_none (h : decodeMisc x low = none) :
    low.toNat ∉ [0x07, 0x0A, 0x15, 0x18, 0x1E, 0x29, 0x33, 0x55, 0x65] := by
  unfold decodeMisc at h
  split at h
  case h_10 => simp_all
  all_goals cases h

/-- A word that does not decode is on the list of illegal words (R86). -/
theorem wordLegal_eq_false_of_decodeNibbles
    (h : decodeNibbles (nibble1 w) (nibble2 w) (nibble3 w) (nibble4 w) = none) :
    wordLegal w = false := by
  have hfamily := toNat_nibble1 w
  have hlow : (immByte (nibble3 w) (nibble4 w)).toNat = w.toNat % 256 := by
    rw [toNat_immByte, toNat_nibble3, toNat_nibble4]; omega
  unfold decodeNibbles at h
  split at h
  case h_1 hn =>
    have hw : w.toNat / 4096 = 0 := hfamily.symm.trans hn
    have haddr : (immAddr (nibble2 w) (nibble3 w) (nibble4 w)).toNat = w.toNat := by
      rw [toNat_immAddr, toNat_nibble2, toNat_nibble3, toNat_nibble4]; omega
    have hne := ne_of_decodeFixed_eq_none h
    rw [haddr] at hne
    simp [wordLegal, hw, hne]
  case h_6 hn | h_10 hn =>
    have hne : nibble4 w ≠ 0 := fun h0 => by simp [h0] at h
    have hlast : w.toNat % 16 ≠ 0 := by
      rw [← toNat_nibble4]
      exact fun h0 => hne (BitVec.eq_of_toNat_eq h0)
    have hw := hfamily.symm.trans hn
    simp [wordLegal, hw, hlast]
  case h_9 hn =>
    have hw : w.toNat / 4096 = 8 := hfamily.symm.trans hn
    have hmem := mem_of_decodeAlu_eq_none h
    rw [toNat_nibble4] at hmem
    simp only [wordLegal, hw, List.elem_eq_mem, hmem]
    rfl
  case h_15 hn =>
    have hw : w.toNat / 4096 = 0xE := hfamily.symm.trans hn
    have hmem := not_mem_of_decodeKeySkip_eq_none h
    rw [hlow] at hmem
    simp only [wordLegal, hw, List.elem_eq_mem, hmem]
    rfl
  case h_16 hn =>
    have hw : w.toNat / 4096 = 0xF := hfamily.symm.trans hn
    have hmem := not_mem_of_decodeMisc_eq_none h
    rw [hlow] at hmem
    simp only [wordLegal, hw, List.elem_eq_mem, hmem]
    rfl
  case h_17 =>
    have := (nibble1 w).isLt
    simp only [imp_false] at *
    omega
  all_goals cases h

end Illegal

/-- A word is refused exactly when it is on the list of illegal words (R86). -/
theorem decodeWord_eq_error_iff_wordLegal (w : Word) :
    decodeWord w = .error (.illegalInstruction w) ↔ wordLegal w = false := by
  constructor
  · intro h
    exact wordLegal_eq_false_of_decodeNibbles (decodeWord_eq_error.mp h).1
  · intro h
    refine decodeWord_eq_error_of_ne_ok fun i hi => ?_
    have hlegal := (legalEncoding i).1
    rw [encode_of_decodeWord hi, h] at hlegal
    cases hlegal

/-- Settles O7: a word that decodes is the encoding of its instruction, which is legal; a word that
does not is illegal in its family. -/
theorem refusedWordsAreTheListedIllegalWords : Obligations.RefusedWordsAreTheListedIllegalWords :=
  decodeWord_eq_error_iff_wordLegal

/-- Settles O8: nineteen closed words and one refused, decoded. -/
theorem wordsWrittenFromThePatternsDecode : Obligations.WordsWrittenFromThePatternsDecode := by
  unfold Obligations.WordsWrittenFromThePatternsDecode
  decide

end Sys2Proof
end

section
/-! PROOFS. The faults of a step (40_step_cycle.md R101, R102, R107; 60_exceptions.md R200 to R208).
A step of a machine that has not faulted either completes an instruction or sets the fault record to
one of five forms; said once as `step_cases_of_no_fault`, from which the statements on faults are
read off. -/

namespace Sys2Proof.Machine

variable {s : State}

/-! ### Steps that execute nothing -/

/-- A faulted machine does nothing (R107). -/
theorem step_of_fault (h : s.fault ≠ none) : step s = .next s := by
  rw [step, State.fetchDecode, if_pos h]

/-- A fetch above 0xFFE faults before decode (R202). -/
theorem step_of_fetch_beyond (hf : s.fault = none) (hpc : lastFetch < s.pc.toNat) :
    step s = .next (s.raise .fetchAddress 0 s.pc.toNat) := by
  rw [step, State.fetchDecode, if_neg (not_not_intro hf), if_pos hpc]

/-- A word on the list of illegal words faults in decode (R201). -/
theorem step_of_illegal (hf : s.fault = none) (hpc : s.pc.toNat ≤ lastFetch)
    (hw : wordLegal s.fetchWord = false) :
    step s = .next (s.raise .illegalInstruction s.fetchWord 0) := by
  rw [step, State.fetchDecode, if_neg (not_not_intro hf), if_neg (Nat.not_lt.mpr hpc),
    (decodeWord_eq_error_iff_wordLegal _).mpr hw]

/-- A machine that has not faulted faults in fetch, faults in decode, or runs an instruction. -/
theorem State.fetch_cases (hf : s.fault = none) :
    lastFetch < s.pc.toNat ∨ (s.pc.toNat ≤ lastFetch ∧ wordLegal s.fetchWord = false) ∨
      ∃ i, s.runs i := by
  rcases Nat.lt_or_ge lastFetch s.pc.toNat with hpc | hpc
  · exact .inl hpc
  · cases hd : decodeWord s.fetchWord with
    | ok i => exact .inr (.inr ⟨i, hf, hpc, hd⟩)
    | error e =>
      have hnone := (decodeWord_eq_error.mp hd).1
      exact .inr (.inl ⟨hpc, wordLegal_eq_false_of_decodeNibbles hnone⟩)

/-! ### What any step can do -/

/-- A fault the step of `s` can raise, with the word and info of its record (R200 to R207). -/
inductive State.Raises (s : State) : FaultCause → Word → Nat → Prop
  | fetch (h : lastFetch < s.pc.toNat) : s.Raises .fetchAddress 0 s.pc.toNat
  | illegal (h : wordLegal s.fetchWord = false) : s.Raises .illegalInstruction s.fetchWord 0
  | memory {n : Nat} (h : 0xFFF < n) : s.Raises .memoryAddress s.fetchWord n
  | stack {n : Nat} (h : 15 < n) : s.Raises .stack s.fetchWord n
  | display {n : Nat} (h : 255 < n) : s.Raises .displayIndex s.fetchWord n

/-- A fault that `exec` raised leaves the timer phase out (R107). -/
theorem finishStep_raise (s : State) (c : FaultCause) (w : Word) (n : Nat) :
    finishStep (.next (s.raise c w n)) = .next (s.raise c w n) :=
  congrArg Host.Outcome.next (if_neg (Option.some_ne_none _))

/-- The word of the instruction a state runs is the word it fetches (30_encoding.md R84). -/
theorem State.encode_of_runs {i : Instr} (h : s.runs i) : encode i = s.fetchWord :=
  encode_of_decodeWord h.2.2

/-- A step of a machine that has not faulted completes an instruction and counts the timers down, or
only sets the fault record. -/
theorem step_cases_of_no_fault (hf : s.fault = none) :
    (∃ i u, s.runs i ∧ exec i s = .next u ∧ u.fault = none ∧ step s = .next u.tick) ∨
      ∃ c w n, step s = .next (s.raise c w n) ∧ s.Raises c w n := by
  rcases State.fetch_cases hf with hpc | ⟨hpc, hw⟩ | ⟨i, hruns⟩
  · exact .inr ⟨_, _, _, step_of_fetch_beyond hf hpc, .fetch hpc⟩
  · exact .inr ⟨_, _, _, step_of_illegal hf hpc hw, .illegal hw⟩
  · rcases exec_cases i s with ⟨u, hu, hkept⟩ | ⟨c, n, hraise, hcause⟩
    · have hnone := hkept.trans hf
      exact .inl ⟨i, u, hruns, hu, hnone, step_of_runs_of_no_fault hruns hu hnone⟩
    · refine .inr ⟨c, s.fetchWord, n, ?_, ?_⟩
      · rw [step_of_runs hruns, hraise, finishStep_raise, State.encode_of_runs hruns]
      · rcases hcause with ⟨rfl, hn⟩ | ⟨rfl, hn⟩ | ⟨rfl, hn⟩
        · exact .memory hn
        · exact .stack hn
        · exact .display hn

/-! ### The obligations -/

/-- Settles O13: a completed step ends in the timer phase, which records no fault; every other step
only sets the record; a faulted machine is idle. -/
theorem faultsArePreciseAndSticky : Obligations.FaultsArePreciseAndSticky := by
  refine ⟨fun s hf => ?_, fun s => step_of_fault⟩
  rcases step_cases_of_no_fault hf with ⟨_, u, _, _, hnone, hstep⟩ | ⟨_, _, _, hstep, _⟩
  · exact ⟨u.tick, hstep, .inl hnone⟩
  · exact ⟨_, hstep, .inr ⟨_, rfl⟩⟩

/-- Settles O14: a step that records a fault has raised one of the five, and the record is what that
one sets. -/
theorem faultRecordIdentifiesTheFault : Obligations.FaultRecordIdentifiesTheFault := by
  intro s t r hf hstep hr
  rcases step_cases_of_no_fault hf with ⟨_, u, _, _, hnone, hdone⟩ | ⟨c, w, n, hraise, hcause⟩
  · obtain rfl : u.tick = t := Host.Outcome.next.inj (hdone.symm.trans hstep)
    cases hnone.symm.trans hr
  · obtain rfl : s.raise c w n = t := Host.Outcome.next.inj (hraise.symm.trans hstep)
    cases hr
    cases hcause with
    | fetch hpc => simpa [lastFetch] using hpc
    | illegal hw => simpa using hw
    | memory hn | stack hn | display hn => simpa using hn

/-- Settles O9: the fetched word is the two bytes in this order, and the end of a step is the timer
phase unless a fault is recorded. -/
theorem stepRunsTheDecodedInstruction : Obligations.StepRunsTheDecodedInstruction := by
  intro s i hf hpc hdecode
  have hstep : step s = finishStep (exec i s) := step_of_runs ⟨hf, hpc, hdecode⟩
  refine ⟨hstep, fun t ht hnone => ?_, fun t ht hsome => ?_⟩
  · rw [hstep, ht, finishStep_of_no_fault hnone]
  · rw [hstep, ht, finishStep, if_neg hsome]

/-- Settles O11: fetch raises before anything is decoded. -/
theorem fetchBeyondMemoryFaults : Obligations.FetchBeyondMemoryFaults :=
  fun _ => step_of_fetch_beyond

/-- Settles O12: decode refuses exactly the listed words. -/
theorem illegalWordFaults : Obligations.IllegalWordFaults :=
  fun _ => step_of_illegal

end Sys2Proof.Machine
end

section
/-! PROOFS. Execute as a check and then a completion (40_step_cycle.md R103; 60_exceptions.md R203
to R206): every check of an instruction comes before its first access. `State.check` is the check,
`State.complete` the state it leaves where the check passes, and `exec_eq_checked` ties both to
`exec`. What an execution writes, and what it does not depend on, is then said field by field of
`State.complete`. -/

namespace Sys2Proof.Machine

/-! ### Check, then complete -/

/-- The fault an instruction raises, with the offending value; only six instructions raise any
(60_exceptions.md R204 to R206). -/
def State.check (s : State) : Instr → Option (FaultCause × Nat)
  | .ret => if s.sp.toNat ≤ 15 then none else some (.stack, s.sp.toNat)
  | .call _ => if (s.sp + 1).toNat ≤ 15 then none else some (.stack, (s.sp + 1).toNat)
  | .drw x y n => drawCheck s.i (s.readV x) (s.readV y) (List.range n.toNat)
  | .ldB _ => (firstBadAddr s.i (List.range 3)).map (FaultCause.memoryAddress, ·)
  | .storeRegs x | .loadRegs x =>
    (firstBadAddr s.i (List.range (x.val + 1))).map (FaultCause.memoryAddress, ·)
  | _ => none

/-- The state an instruction leaves where its check passes. An instruction without a check leaves
what `exec` answers. -/
def State.complete (s : State) (i : Instr) : State :=
  match i with
  | .ret => (s.setSp (s.sp - 1)).setPc ((s.readStack s.sp.toNat).getD 0 + 2)
  | .call nnn => ((s.setSp (s.sp + 1)).writeStack (s.sp + 1).toNat s.pc).setPc (zext16 nnn)
  | .drw x y n =>
    ((drawRows s.i (s.readV x) (s.readV y) s (List.range n.toNat)).writeV vf
      (flagByte (drawHit s s.i (s.readV x) (s.readV y) (List.range n.toNat)))).advance
  | .ldB x => (s.writeMem s.i.toNat (decimalDigits (s.readV x))).advance
  | .storeRegs x => (s.writeMem s.i.toNat ((regsUpTo x).map s.readV)).advance
  | .loadRegs x => (loadFrom s.i s (regsUpTo x)).advance
  | i =>
    match exec i s with
    | .next t => t
    | .fault _ | .refused _ => s

/-- The answer of an instruction that checks and then completes. -/
def checked (s : State) (i : Instr) : Result :=
  match s.check i with
  | some (c, n) => .next (s.raise c (encode i) n)
  | none => .next (s.complete i)

section Checked

variable {i : Instr} {s : State}

theorem checked_of_some {c : FaultCause} {n : Nat} (h : s.check i = some (c, n)) :
    checked s i = .next (s.raise c (encode i) n) := by
  rw [checked, h]

theorem checked_of_none (h : s.check i = none) : checked s i = .next (s.complete i) := by
  rw [checked, h]

/-- A data access is a check of its addresses and a completion. -/
theorem withDataAccess_eq_checked {ks : List Nat}
    (hcheck : s.check i = (firstBadAddr s.i ks).map (FaultCause.memoryAddress, ·)) :
    withDataAccess i ks s (s.complete i) = checked s i := by
  rcases withDataAccess_cases s i ks (s.complete i) with ⟨ea, hbad, haccess⟩ | ⟨hnone, haccess⟩
  · rw [hbad] at hcheck
    rw [haccess, checked_of_some hcheck]
  · rw [hnone] at hcheck
    rw [haccess, checked_of_none hcheck]

end Checked

/-- Execute is the check, then the completion. -/
theorem exec_eq_checked (i : Instr) (s : State) : exec i s = checked s i := by
  cases i
  case ret =>
    by_cases hsp : s.sp.toNat ≤ 15
    · have hslot := s.readStack_of_le (k := s.sp.toNat) (by omega)
      have hcheck : s.check .ret = none := if_pos hsp
      simp only [exec, execRet, checked_of_none hcheck, State.complete, hslot, Option.getD_some]
    · have hslot := s.readStack_of_gt (k := s.sp.toNat) (by omega)
      have hcheck : s.check .ret = some (.stack, s.sp.toNat) := if_neg hsp
      simp only [exec, execRet, checked_of_some hcheck, hslot]
  case call nnn =>
    by_cases hsp : (s.sp + 1).toNat ≤ 15
    · have hcheck : s.check (.call nnn) = none := if_pos hsp
      rw [checked_of_none hcheck]
      exact if_neg (Nat.not_lt.mpr hsp)
    · have hcheck : s.check (.call nnn) = some (.stack, (s.sp + 1).toNat) := if_neg hsp
      rw [checked_of_some hcheck]
      exact if_pos (Nat.not_le.mp hsp)
  case drw x y n =>
    cases hdraw : drawCheck s.i (s.readV x) (s.readV y) (List.range n.toNat) with
    | none =>
      have hcheck : s.check (.drw x y n) = none := hdraw
      simp only [exec, execDrw, checked_of_none hcheck, State.complete, hdraw]
    | some cn =>
      have hcheck : s.check (.drw x y n) = some (cn.1, cn.2) := hdraw
      simp only [exec, execDrw, checked_of_some hcheck, hdraw]
  case ldB x => exact withDataAccess_eq_checked (i := .ldB x) rfl
  case storeRegs x => exact withDataAccess_eq_checked (i := .storeRegs x) rfl
  case loadRegs x => exact withDataAccess_eq_checked (i := .loadRegs x) rfl
  all_goals rfl

variable {i : Instr} {s t : State}

theorem exec_of_check_none (h : s.check i = none) : exec i s = .next (s.complete i) :=
  (exec_eq_checked i s).trans (checked_of_none h)

theorem exec_of_check_some {c : FaultCause} {n : Nat} (h : s.check i = some (c, n)) :
    exec i s = .next (s.raise c (encode i) n) :=
  (exec_eq_checked i s).trans (checked_of_some h)

/-- What an answered state is: the old one with a fault recorded, or the completed one. -/
theorem exec_next_cases (h : exec i s = .next t) :
    (∃ c n, s.check i = some (c, n) ∧ t = s.raise c (encode i) n) ∨
      (s.check i = none ∧ t = s.complete i) := by
  cases hc : s.check i with
  | none =>
    rw [exec_of_check_none hc] at h
    exact .inr ⟨rfl, (Host.Outcome.next.inj h).symm⟩
  | some cn =>
    rw [exec_of_check_some hc] at h
    exact .inl ⟨cn.1, cn.2, rfl, (Host.Outcome.next.inj h).symm⟩

/-- What a fault record and a completion both leave alone, an execution leaves alone. -/
theorem exec_keeps {α : Type} (f : State → α) (h : exec i s = .next t)
    (hraise : ∀ c w n, f (s.raise c w n) = f s) (hcomplete : f (s.complete i) = f s) :
    f t = f s := by
  rcases exec_next_cases h with ⟨c, n, -, rfl⟩ | ⟨-, rfl⟩
  · exact hraise c (encode i) n
  · exact hcomplete

/-- Settles O15: an instruction other than the six has no check, and what it writes is no fault
record. -/
theorem onlySixInstructionsCanFault : Obligations.OnlySixInstructionsCanFault := by
  intro i s hret hcall hdrw hldB hstore hload
  cases i
  case ret => exact absurd rfl hret
  case call nnn => exact absurd rfl (hcall nnn)
  case drw x y n => exact absurd rfl (hdrw x y n)
  case ldB x => exact absurd rfl (hldB x)
  case storeRegs x => exact absurd rfl (hstore x)
  case loadRegs x => exact absurd rfl (hload x)
  all_goals exact ⟨_, rfl, rfl⟩

/-! ### What drawing and loading leave alone -/

section Loops

variable (s : State) (base : Word) (vx vy : Byte) (rs : List Nat) (ks : List Reg)

@[simp] theorem drawRows_i : (drawRows base vx vy s rs).i = s.i := by rw [drawRows_frame]
@[simp] theorem drawRows_pc : (drawRows base vx vy s rs).pc = s.pc := by rw [drawRows_frame]
@[simp] theorem drawRows_sp : (drawRows base vx vy s rs).sp = s.sp := by rw [drawRows_frame]
@[simp] theorem drawRows_stack : (drawRows base vx vy s rs).stack = s.stack := by
  rw [drawRows_frame]
@[simp] theorem drawRows_dt : (drawRows base vx vy s rs).dt = s.dt := by rw [drawRows_frame]
@[simp] theorem drawRows_st : (drawRows base vx vy s rs).st = s.st := by rw [drawRows_frame]
@[simp] theorem drawRows_mem : (drawRows base vx vy s rs).mem = s.mem := by rw [drawRows_frame]
@[simp] theorem drawRows_fault : (drawRows base vx vy s rs).fault = s.fault := by
  rw [drawRows_frame]
@[simp] theorem readV_drawRows (k : Reg) : (drawRows base vx vy s rs).readV k = s.readV k := by
  rw [drawRows_frame]; rfl

@[simp] theorem loadFrom_i : (loadFrom base s ks).i = s.i := by rw [loadFrom_frame]
@[simp] theorem loadFrom_pc : (loadFrom base s ks).pc = s.pc := by rw [loadFrom_frame]
@[simp] theorem loadFrom_sp : (loadFrom base s ks).sp = s.sp := by rw [loadFrom_frame]
@[simp] theorem loadFrom_stack : (loadFrom base s ks).stack = s.stack := by rw [loadFrom_frame]
@[simp] theorem loadFrom_dt : (loadFrom base s ks).dt = s.dt := by rw [loadFrom_frame]
@[simp] theorem loadFrom_st : (loadFrom base s ks).st = s.st := by rw [loadFrom_frame]
@[simp] theorem loadFrom_mem : (loadFrom base s ks).mem = s.mem := by rw [loadFrom_frame]
@[simp] theorem loadFrom_disp : (loadFrom base s ks).disp = s.disp := by rw [loadFrom_frame]
@[simp] theorem loadFrom_fault : (loadFrom base s ks).fault = s.fault := by rw [loadFrom_frame]

end Loops

/-! ### What each completion writes -/

theorem complete_fault (s : State) (i : Instr) : (s.complete i).fault = s.fault := by
  cases i
  case drw | loadRegs => simp [State.complete]
  all_goals rfl

theorem complete_mem (h : i.writesMem = false) : (s.complete i).mem = s.mem := by
  cases i
  case ldB | storeRegs => cases h
  case drw | loadRegs => simp [State.complete]
  all_goals rfl

theorem complete_disp (h : i.writesDisp = false) : (s.complete i).disp = s.disp := by
  cases i
  case cls | drw => cases h
  case loadRegs => simp [State.complete]
  all_goals rfl

theorem complete_stack (h : ∀ nnn, i ≠ .call nnn) : (s.complete i).stack = s.stack := by
  cases i
  case call nnn => exact absurd rfl (h nnn)
  case drw | loadRegs => simp [State.complete]
  all_goals rfl

theorem complete_sp (hret : i ≠ .ret) (hcall : ∀ nnn, i ≠ .call nnn) :
    (s.complete i).sp = s.sp := by
  cases i
  case ret => exact absurd rfl hret
  case call nnn => exact absurd rfl (hcall nnn)
  case drw | loadRegs => simp [State.complete]
  all_goals rfl

theorem complete_i (hldI : ∀ nnn, i ≠ .ldI nnn) (haddI : ∀ x, i ≠ .addI x)
    (hldF : ∀ x, i ≠ .ldF x) : (s.complete i).i = s.i := by
  cases i
  case ldI nnn => exact absurd rfl (hldI nnn)
  case addI x => exact absurd rfl (haddI x)
  case ldF x => exact absurd rfl (hldF x)
  case drw | loadRegs => simp [State.complete]
  all_goals rfl

theorem complete_dt (h : ∀ x, i ≠ .ldDtVx x) : (s.complete i).dt = s.dt := by
  cases i
  case ldDtVx x => exact absurd rfl (h x)
  case drw | loadRegs => simp [State.complete]
  all_goals rfl

theorem complete_st (h : ∀ x, i ≠ .ldStVx x) : (s.complete i).st = s.st := by
  cases i
  case ldStVx x => exact absurd rfl (h x)
  case drw | loadRegs => simp [State.complete]
  all_goals rfl

/-- Settles O50: field by field, what the completion of an instruction not named leaves alone; a
fault record leaves every field alone. -/
theorem eachArrayHasItsOwnWriters : Obligations.EachArrayHasItsOwnWriters := by
  intro i s t h
  refine ⟨fun hi => ?mem, fun hi => ?disp, fun hi => ?stack, fun hret hcall => ?sp,
    fun hldI haddI hldF => ?i, fun hi => ?dt, fun hi => ?st⟩
  case mem => exact exec_keeps State.mem h (fun _ _ _ => rfl) (complete_mem hi)
  case disp => exact exec_keeps State.disp h (fun _ _ _ => rfl) (complete_disp hi)
  case stack => exact exec_keeps State.stack h (fun _ _ _ => rfl) (complete_stack hi)
  case sp => exact exec_keeps State.sp h (fun _ _ _ => rfl) (complete_sp hret hcall)
  case i => exact exec_keeps State.i h (fun _ _ _ => rfl) (complete_i hldI haddI hldF)
  case dt => exact exec_keeps State.dt h (fun _ _ _ => rfl) (complete_dt hi)
  case st => exact exec_keeps State.st h (fun _ _ _ => rfl) (complete_st hi)

/-! ### The V file -/

section Registers

variable {k x y : Reg}

theorem State.readV_writeV_of_ne (s : State) (h : k ≠ x) (b : Byte) :
    (s.writeV x b).readV k = s.readV k := by
  rw [readV_writeV, if_neg h]

theorem State.readV_writeV_writeV_of_ne (s : State) (hx : k ≠ x) (hy : k ≠ y) (a b : Byte) :
    ((s.writeV x a).writeV y b).readV k = s.readV k := by
  rw [readV_writeV_of_ne _ hy, readV_writeV_of_ne _ hx]

/-- An instruction that may not write V[k] leaves it alone where it completes. -/
theorem readV_complete (h : i.writesReg k = false) : (s.complete i).readV k = s.readV k := by
  cases i
  case ldImm | addImm | rnd | ldVxDt | ldVxK | ldReg | orReg | andReg | xorReg =>
    exact State.readV_writeV_of_ne _ (of_decide_eq_false h) _
  case addReg | subReg | subnReg =>
    obtain ⟨hx, hvf⟩ := Bool.or_eq_false_iff.mp h
    exact s.readV_writeV_writeV_of_ne (of_decide_eq_false hx) (of_decide_eq_false hvf) _ _
  case shr | shl =>
    obtain ⟨hx, hvf⟩ := Bool.or_eq_false_iff.mp h
    exact s.readV_writeV_writeV_of_ne (of_decide_eq_false hvf) (of_decide_eq_false hx) _ _
  case drw =>
    exact (State.readV_writeV_of_ne _ (of_decide_eq_false h) _).trans (readV_drawRows ..)
  case loadRegs x =>
    have hk : k ∉ regsUpTo x := fun hmem => of_decide_eq_false h ((mem_regsUpTo x k).mp hmem)
    exact (readV_loadFrom ..).trans (if_neg hk)
  all_goals rfl

end Registers

/-- Settles O49: a completion writes the listed registers only, a fault record none. -/
theorem onlyTheNamedRegistersAreWritten : Obligations.OnlyTheNamedRegistersAreWritten :=
  fun _ _ _ k h hi => exec_keeps (·.readV k) h (fun _ _ _ => rfl) (readV_complete hi)

end Sys2Proof.Machine
end

section
/-! PROOFS. ST, the key latch and the draw count are read and written by five instructions only
(10_state.md sections 6 and 10; 43_immediate_random.md R143). Every other execution commutes with
setting all three to any values, `exec_setAux`; setting them to what they are already shows that it
leaves them alone. -/

namespace Sys2Proof.Machine

/-- ST, the key latch and the draw count set at once. -/
def State.setAux (s : State) (st key : Byte) (draws : Nat) : State :=
  { s with st := st, key := key, draws := draws }

/-- The instructions that read or write ST, the key latch or the draw count. -/
def usesAux : Instr → Bool
  | .skp _ | .sknp _ | .ldVxK _ | .rnd _ _ | .ldStVx _ => true
  | _ => false

variable {i : Instr} {s t : State} (st key : Byte) (draws : Nat)

/-! ### The loops -/

theorem drawRows_setAux (base : Word) (vx vy : Byte) (s : State) (rs : List Nat) :
    drawRows base vx vy (s.setAux st key draws) rs =
      (drawRows base vx vy s rs).setAux st key draws := by
  induction rs generalizing s with
  | nil => rfl
  | cons r rs ih =>
    exact ih (s.writeDisp (displayIndex vx vy r)
      (s.readDisp (displayIndex vx vy r) ^^^ s.readMem (effAddr base r)))

theorem loadFrom_setAux (base : Word) (s : State) (ks : List Reg) :
    loadFrom base (s.setAux st key draws) ks = (loadFrom base s ks).setAux st key draws := by
  induction ks generalizing s with
  | nil => rfl
  | cons k ks ih => exact ih (s.writeV k (s.readMem (effAddr base k.val)))

/-! ### Check and completion -/

/-- No check reads any of the three. -/
theorem check_setAux (s : State) (i : Instr) : (s.setAux st key draws).check i = s.check i := by
  cases i <;> rfl

theorem complete_setAux (h : usesAux i = false) :
    (s.setAux st key draws).complete i = (s.complete i).setAux st key draws := by
  cases i
  case skp | sknp | ldVxK | rnd | ldStVx => cases h
  case drw x y n =>
    exact congrArg (fun u : State => (u.writeV vf (flagByte
      (drawHit s s.i (s.readV x) (s.readV y) (List.range n.toNat)))).advance) (drawRows_setAux ..)
  case loadRegs x => exact congrArg State.advance (loadFrom_setAux ..)
  all_goals rfl

/-- An instruction that uses none of the three does the same whatever they hold. -/
theorem exec_setAux (hi : usesAux i = false) (h : exec i s = .next t) :
    exec i (s.setAux st key draws) = .next (t.setAux st key draws) := by
  have hcheck := check_setAux st key draws s i
  rcases exec_next_cases h with ⟨c, n, hc, rfl⟩ | ⟨hc, rfl⟩
  · exact exec_of_check_some (hcheck.trans hc)
  · rw [exec_of_check_none (hcheck.trans hc), complete_setAux st key draws hi]

/-- An instruction that uses none of the three leaves them alone. -/
theorem exec_keeps_aux (hi : usesAux i = false) (h : exec i s = .next t) :
    t.st = s.st ∧ t.key = s.key ∧ t.draws = s.draws := by
  have hown : exec i s = .next (t.setAux s.st s.key s.draws) := exec_setAux _ _ _ hi h
  have ht : t = t.setAux s.st s.key s.draws := Host.Outcome.next.inj (h.symm.trans hown)
  rw [ht]
  exact ⟨rfl, rfl, rfl⟩

/-! ### The obligations -/

/-- Settles O51: three instructions read the latch, none writes it; two more use ST or the draw
count, not the latch; every other one commutes with setting it. -/
theorem keyLatchReachesOnlyItsReaders : Obligations.KeyLatchReachesOnlyItsReaders := by
  intro i s t h
  by_cases hi : usesAux i = true
  · cases i
    case skp | sknp | ldVxK => cases h; exact ⟨rfl, fun hread => nomatch hread⟩
    case rnd | ldStVx => cases h; exact ⟨rfl, fun _ _ => rfl⟩
    all_goals cases hi
  · rw [Bool.not_eq_true] at hi
    obtain ⟨hst, hkey, hdraws⟩ := exec_keeps_aux hi h
    refine ⟨hkey, fun _ k => ?_⟩
    have hset : exec i (s.setKey k) = .next (t.setAux s.st k s.draws) :=
      exec_setAux s.st k s.draws hi h
    rwa [← hst, ← hdraws] at hset

/-- Settles O52: Fx18 overwrites ST; the other four users of `usesAux` hand ST on as every
instruction that uses none of the three does. -/
theorem soundTimerIsReadByNoInstruction : Obligations.SoundTimerIsReadByNoInstruction := by
  intro i s t b h
  by_cases hi : usesAux i = true
  · cases i
    case skp | sknp | ldVxK | rnd => cases h; exact ⟨_, rfl, rfl, fun _ => rfl⟩
    case ldStVx x => cases h; exact ⟨_, rfl, rfl, fun hne => absurd rfl (hne x)⟩
    all_goals cases hi
  · rw [Bool.not_eq_true] at hi
    obtain ⟨-, hkey, hdraws⟩ := exec_keeps_aux hi h
    have hset : exec i (s.setSt b) = .next (t.setAux b s.key s.draws) :=
      exec_setAux b s.key s.draws hi h
    rw [← hkey, ← hdraws] at hset
    exact ⟨t.setSt b, hset, rfl, fun _ => rfl⟩

/-- Settles O53: of the users of `usesAux` only Cxnn touches the draw count; every other instruction
commutes with setting it. -/
theorem onlyRandomInstructionDraws : Obligations.OnlyRandomInstructionDraws := by
  intro i s t n hrnd h
  by_cases hi : usesAux i = true
  · cases i
    case rnd x nn => exact absurd rfl (hrnd x nn)
    case skp | sknp | ldVxK | ldStVx => cases h; exact ⟨rfl, rfl⟩
    all_goals cases hi
  · rw [Bool.not_eq_true] at hi
    obtain ⟨hst, hkey, hdraws⟩ := exec_keeps_aux hi h
    have ht : t.setAux s.st s.key n = { t with draws := n } := by rw [← hst, ← hkey]; rfl
    exact ⟨hdraws, ht ▸ exec_setAux s.st s.key n hi h⟩

end Sys2Proof.Machine
end

section
/-! PROOFS. The invariant of 10_state.md section 15: PC and the stack hold small enough addresses,
SP is a slot or 0xFF, memory stays canonical. A fault record, the timer phase and the host's key
leave every field of it alone, so it turns on `State.complete`, one lemma per field. -/

namespace Sys2Proof.Machine

variable {i : Instr} {s : State}

/-! ### The checks, on numbers -/

/-- The check of a data access at I to I + n (20_memory.md R56). -/
theorem firstBadAddr_range_map (base : Word) (n : Nat) :
    (firstBadAddr base (List.range (n + 1))).map (FaultCause.memoryAddress, ·) =
      if base.toNat + n ≤ 0xFFF then none else some (.memoryAddress, max base.toNat 0x1000) := by
  rw [firstBadAddr_range]
  split <;> rfl

theorem check_ldB (x : Reg) (s : State) : s.check (.ldB x) =
    if s.i.toNat + 2 ≤ 0xFFF then none else some (.memoryAddress, max s.i.toNat 0x1000) :=
  firstBadAddr_range_map s.i 2

theorem check_storeRegs (x : Reg) (s : State) : s.check (.storeRegs x) =
    if s.i.toNat + x.val ≤ 0xFFF then none else some (.memoryAddress, max s.i.toNat 0x1000) :=
  firstBadAddr_range_map s.i x.val

theorem check_loadRegs (x : Reg) (s : State) : s.check (.loadRegs x) =
    if s.i.toNat + x.val ≤ 0xFFF then none else some (.memoryAddress, max s.i.toNat 0x1000) :=
  firstBadAddr_range_map s.i x.val

theorem check_ret (s : State) : s.check .ret =
    if s.sp.toNat ≤ 15 then none else some (.stack, s.sp.toNat) := rfl

theorem check_call (nnn : BitVec 12) (s : State) : s.check (.call nnn) =
    if (s.sp + 1).toNat ≤ 15 then none else some (.stack, (s.sp + 1).toNat) := rfl

/-- A check that is a test passes when the test holds. -/
theorem of_ite_none_eq_none {α : Type} {p : Prop} [Decidable p] {a : α}
    (h : (if p then none else some a) = none) : p := by
  by_contra hp
  rw [if_neg hp] at h
  cases h

/-! ### Each field after a completion -/

/-- A checked store is below 0x1000, so it keeps the canonical form. -/
theorem wf_mem_complete (hm : s.mem.wf = true) (hc : s.check i = none) :
    (s.complete i).mem.wf = true := by
  cases hi : i.writesMem with
  | false => rwa [complete_mem hi]
  | true =>
    cases i
    case ldB x =>
      have hrange := of_ite_none_eq_none ((check_ldB x s).symm.trans hc)
      refine Memory.wf_writeBytes (decimalDigits (s.readV x)) hm ?_
      simp only [decimalDigits, List.length_cons, List.length_nil, Config.memSize]
      omega
    case storeRegs x =>
      have hrange := of_ite_none_eq_none ((check_storeRegs x s).symm.trans hc)
      refine Memory.wf_writeBytes ((regsUpTo x).map s.readV) hm ?_
      rw [List.length_map, length_regsUpTo, Config.memSize]
      omega
    all_goals cases hi

/-- SP stays a slot, or is 0xFF after the return from slot 0 (10_state.md R36). -/
theorem sp_complete (hsp : s.sp.toNat ≤ 15 ∨ s.sp = 0xFF) (hc : s.check i = none) :
    (s.complete i).sp.toNat ≤ 15 ∨ (s.complete i).sp = 0xFF := by
  cases i
  case ret =>
    have hrange := of_ite_none_eq_none ((check_ret s).symm.trans hc)
    change (s.sp - 1).toNat ≤ 15 ∨ s.sp - 1 = 0xFF
    bv_omega
  case call nnn =>
    exact .inl (of_ite_none_eq_none ((check_call nnn s).symm.trans hc))
  all_goals rwa [complete_sp Instr.noConfusion fun _ => Instr.noConfusion]

/-- A call stores its own address, which was fetched from (41_control_flow.md R122). -/
theorem slots_complete (hslots : ∀ k : Fin 16, s.stack[k].toNat ≤ lastFetch)
    (hpc : s.pc.toNat ≤ lastFetch) (k : Fin 16) : (s.complete i).stack[k].toNat ≤ lastFetch := by
  cases i
  case call nnn =>
    change (s.stack.setIfInBounds (s.sp + 1).toNat s.pc)[k].toNat ≤ lastFetch
    rw [Fin.getElem_fin, Vector.getElem_setIfInBounds]
    split
    · exact hpc
    · exact hslots k
  all_goals
    rw [complete_stack fun _ => Instr.noConfusion]
    exact hslots k

/-- Two past a fetchable address. -/
theorem toNat_add_two_le {w : Word} (h : w.toNat ≤ lastFetch) : (w + 2).toNat ≤ 0x10FE := by
  rw [lastFetch] at h
  bv_omega

/-- A skip from a fetchable address. -/
theorem toNat_pc_skipIf_le (h : s.pc.toNat ≤ lastFetch) (c : Bool) :
    (s.skipIf c).pc.toNat ≤ 0x10FE := by
  cases c
  · exact toNat_add_two_le h
  · rw [lastFetch] at h
    change (s.pc + 4).toNat ≤ 0x10FE
    bv_omega

/-- An address as a target. -/
theorem toNat_zext16_le (nnn : BitVec 12) : (zext16 nnn).toNat ≤ 0xFFF := by
  rw [toNat_zext16]
  omega

/-- A register as an address. -/
theorem toNat_zextReg (b : Byte) : (zextReg b).toNat = b.toNat :=
  BitVec.toNat_setWidth_of_le (by decide)

/-- The target of Bnnn is the sum of the two numbers: no bit of it is lost (R123). -/
theorem toNat_zextReg_add_zext16 (b : Byte) (nnn : BitVec 12) :
    (zextReg b + zext16 nnn).toNat = b.toNat + nnn.toNat := by
  rw [BitVec.toNat_add, toNat_zextReg, toNat_zext16]
  omega

/-- The furthest an instruction leaves PC is the largest target of Bnnn. -/
theorem pc_complete (hslots : ∀ k : Fin 16, s.stack[k].toNat ≤ lastFetch)
    (hpc : s.pc.toNat ≤ lastFetch) (hc : s.check i = none) :
    (s.complete i).pc.toNat ≤ 0x10FE := by
  cases i
  case ret =>
    have hrange := of_ite_none_eq_none ((check_ret s).symm.trans hc)
    change ((s.readStack s.sp.toNat).getD 0 + 2).toNat ≤ 0x10FE
    rw [s.readStack_of_le (by omega)]
    exact toNat_add_two_le (hslots ⟨s.sp.toNat, by omega⟩)
  case jp nnn | call nnn => exact (toNat_zext16_le nnn).trans (by decide)
  case jpV0 nnn =>
    change (zextReg (s.readV 0) + zext16 nnn).toNat ≤ 0x10FE
    rw [toNat_zextReg_add_zext16]
    omega
  case seImm | sneImm | seReg | sneReg | skp | sknp => exact toNat_pc_skipIf_le hpc _
  case drw x y n =>
    change ((drawRows s.i (s.readV x) (s.readV y) s (List.range n.toNat)).pc + 2).toNat ≤ 0x10FE
    rw [drawRows_pc]
    exact toNat_add_two_le hpc
  case loadRegs x =>
    change ((loadFrom s.i s (regsUpTo x)).pc + 2).toNat ≤ 0x10FE
    rw [loadFrom_pc]
    exact toNat_add_two_le hpc
  all_goals exact toNat_add_two_le hpc

/-! ### The invariant -/

theorem State.Inv.raise (h : s.Inv) (c : FaultCause) (w : Word) (n : Nat) :
    (s.raise c w n).Inv where
  mem_wf := h.mem_wf
  sp_reachable := h.sp_reachable
  slots_fetchable := h.slots_fetchable
  pc_bounded := h.pc_bounded
  fault_pc := by rintro r ⟨⟩; rfl

theorem State.Inv.tick (h : s.Inv) : s.tick.Inv :=
  ⟨h.mem_wf, h.sp_reachable, h.slots_fetchable, h.pc_bounded, h.fault_pc⟩

theorem State.Inv.setKey (h : s.Inv) (k : Byte) : (s.setKey k).Inv :=
  ⟨h.mem_wf, h.sp_reachable, h.slots_fetchable, h.pc_bounded, h.fault_pc⟩

theorem State.Inv.complete (h : s.Inv) (hf : s.fault = none) (hpc : s.pc.toNat ≤ lastFetch)
    (hc : s.check i = none) : (s.complete i).Inv where
  mem_wf := wf_mem_complete h.mem_wf hc
  sp_reachable := sp_complete h.sp_reachable hc
  slots_fetchable := slots_complete h.slots_fetchable hpc
  pc_bounded := pc_complete h.slots_fetchable hpc hc
  fault_pc := by
    intro r hr
    rw [complete_fault, hf] at hr
    cases hr

/-- An execution keeps the invariant. -/
theorem State.Inv.exec {t : State} (h : s.Inv) (hruns : s.runs i) (ht : exec i s = .next t) :
    t.Inv := by
  rcases exec_next_cases ht with ⟨c, n, -, rfl⟩ | ⟨hc, rfl⟩
  · exact h.raise c (encode i) n
  · exact h.complete hruns.1 hruns.2.1 hc

/-- Every step keeps the invariant. -/
theorem State.Inv.step {t : State} (h : s.Inv) (ht : step s = .next t) : t.Inv := by
  by_cases hf : s.fault = none
  · rcases step_cases_of_no_fault hf with ⟨i, u, hruns, hu, -, hdone⟩ | ⟨c, w, n, hraise, -⟩
    · obtain rfl : u.tick = t := Host.Outcome.next.inj (hdone.symm.trans ht)
      exact (h.exec hruns hu).tick
    · obtain rfl : s.raise c w n = t := Host.Outcome.next.inj (hraise.symm.trans ht)
      exact h.raise c w n
  · obtain rfl : s = t := Host.Outcome.next.inj ((step_of_fault hf).symm.trans ht)
    exact h

/-! ### Reset -/

/-- Writing the reset contents over blank memory leaves it blank. -/
theorem writeBytes_nil {a : Nat} {us : List Byte}
    (h : ∀ k (hk : k < us.length), us[k] = initByte (a + k)) : Memory.writeBytes [] a us = [] := by
  induction us generalizing a with
  | nil => rfl
  | cons u us ih =>
    have hu : u = initByte a := h 0 (Nat.zero_lt_succ _)
    rw [Memory.writeBytes, Memory.write, if_pos hu]
    refine ih fun k hk => ?_
    have hnext := h (k + 1) (Nat.succ_lt_succ hk)
    rwa [List.getElem_cons_succ, Nat.add_comm k 1, ← Nat.add_assoc] at hnext

/-- The default font is what blank memory reads as, so placing it changes nothing. -/
theorem hostReset_nil_defaultFont : hostReset [] defaultFont = .ok State.reset := by
  have hblank : Memory.writeBytes [] 0 defaultFont.toList = [] := by
    refine writeBytes_nil fun k hk => ?_
    rw [Nat.zero_add]
    exact (List.getD_eq_getElem fontBytes 0 hk).symm
  refine hostReset_eq_ok_iff.mpr ⟨Nat.zero_le _, ?_⟩
  change { State.reset with mem := Memory.writeBytes [] 0 defaultFont.toList } = State.reset
  rw [hblank]
  rfl

theorem slots_reset : ∀ k : Fin 16, State.reset.stack[k].toNat ≤ lastFetch := by decide

/-- Font and ROM fit into memory, and everything else is as in the blank state. -/
theorem inv_of_hostReset {rom : List Byte} {font : Vector Byte 80}
    (h : hostReset rom font = .ok s) : s.Inv := by
  obtain ⟨hlen, rfl⟩ := hostReset_eq_ok_iff.mp h
  have hfits : Config.progBase + rom.length ≤ Config.memSize := by
    rw [Config.progBase, Config.memSize]
    omega
  exact {
    mem_wf := Memory.wf_writeBytes rom (wf_mem_writeMem_font font) hfits
    sp_reachable := .inl (Nat.zero_le _)
    slots_fetchable := slots_reset
    pc_bounded := (by decide : State.reset.pc.toNat ≤ 0x10FE)
    fault_pc := by rintro r ⟨⟩ }

/-! ### The obligations -/

/-- Settles O54: an execution keeps the invariant field by field; a fault record, the timer phase
and the key touch no field of it. -/
theorem everyStepKeepsTheInvariant : Obligations.EveryStepKeepsTheInvariant :=
  fun _ h => ⟨fun _ => h.step, h.setKey⟩

/-- Settles O56: the font and every accepted ROM fit into memory. -/
theorem everyHostResetMeetsTheInvariant : Obligations.EveryHostResetMeetsTheInvariant :=
  fun _ _ _ => inv_of_hostReset

/-- Settles O2: the default font is the reset contents of its addresses. -/
theorem modelResetIsTheEmptyRomReset : Obligations.ModelResetIsTheEmptyRomReset :=
  hostReset_nil_defaultFont

/-- Settles O55: the reset state is a reset of the host. -/
theorem resetMeetsTheInvariant : Obligations.ResetMeetsTheInvariant :=
  inv_of_hostReset hostReset_nil_defaultFont

/-- Settles O3: with no ROM the two bytes at PC are 0, and 0x0000 is an illegal word. -/
theorem emptyRomFaultsAtTheFirstStep : Obligations.EmptyRomFaultsAtTheFirstStep := by
  intro font s hs
  have hpc : s.pc = 0x200 := by rw [hostReset_frame hs]; rfl
  have hf : s.fault = none := by rw [hostReset_frame hs]; rfl
  have hfirst : s.readMem 0x200 = 0 :=
    readMem_eq_zero_of_hostReset hs (by decide) (.inr (by decide))
  have hsecond : s.readMem 0x201 = 0 :=
    readMem_eq_zero_of_hostReset hs (by decide) (.inr (by decide))
  have hword : s.fetchWord = 0 := by
    change wordOfBytes (s.readMem s.pc.toNat) (s.readMem (s.pc.toNat + 1)) = 0
    rw [hpc]
    change wordOfBytes (s.readMem 0x200) (s.readMem 0x201) = 0
    rw [hfirst, hsecond]
    rfl
  have hstep := step_of_illegal hf (by rw [hpc]; decide) (by rw [hword]; decide)
  rwa [hword] at hstep

end Sys2Proof.Machine
end

section
/-! PROOFS. Whole steps: the timers (10_state.md section 15; 40_step_cycle.md R106), a machine at
rest (70_reset_and_hazards.md R244) and the word the load helper places (log entry 11). -/

namespace Sys2Proof.Machine

variable {i : Instr} {s t u : State}

/-! ### The timers over a step -/

/-- Every instruction answers a next state. -/
theorem exec_total (i : Instr) (s : State) : ∃ u, exec i s = .next u := by
  rcases exec_cases i s with ⟨u, hu, -⟩ | ⟨c, n, hu, -⟩
  · exact ⟨u, hu⟩
  · exact ⟨_, hu⟩

/-- The end of a step raises neither timer. -/
theorem timers_le_of_finishStep (h : finishStep (.next u) = .next t) :
    t.dt.toNat ≤ u.dt.toNat ∧ t.st.toNat ≤ u.st.toNat := by
  by_cases hu : u.fault = none
  · rw [finishStep_of_no_fault hu] at h
    cases h
    rw [State.tick_dt, State.tick_st, toNat_countDown, toNat_countDown]
    omega
  · rw [finishStep, if_neg hu] at h
    cases h
    exact ⟨Nat.le_refl _, Nat.le_refl _⟩

/-- Settles O17: execute leaves a timer alone unless it is the one instruction that writes it, and
the end of the step does not raise it. -/
theorem timersRiseOnlyWhenWritten : Obligations.TimersRiseOnlyWhenWritten := by
  intro s t i hruns hstep
  obtain ⟨u, hu⟩ := exec_total i s
  rw [step_of_runs hruns, hu] at hstep
  obtain ⟨hdt, hst⟩ := timers_le_of_finishStep hstep
  obtain ⟨-, -, -, -, -, hkeepDt, hkeepSt⟩ := eachArrayHasItsOwnWriters i s u hu
  exact ⟨fun hi => hkeepDt hi ▸ hdt, fun hi => hkeepSt hi ▸ hst⟩

/-! ### At rest -/

/-- At rest a step is the timer phase alone: the jump sets PC to what it is. -/
theorem step_of_atRest (h : s.atRest) : step s = .next s.tick := by
  obtain ⟨nnn, hfetch, hpc⟩ := h
  have hruns : s.runs (.jp nnn) := s.fetchDecode_eq_run.mp hfetch
  have hjump : exec (.jp nnn) s = .next s := by
    rw [exec_jp, ← hpc]
    rfl
  exact step_of_runs_of_no_fault hruns hjump hruns.1

/-- The timer phase touches nothing that is fetched, so a machine at rest stays there. -/
theorem State.atRest.tick (h : s.atRest) : s.tick.atRest := by
  obtain ⟨nnn, hfetch, hpc⟩ := h
  exact ⟨nnn, s.tick.fetchDecode_eq_run.mpr (s.fetchDecode_eq_run.mp hfetch), hpc⟩

/-- Settles O57, by induction on the number of steps, each of which is the timer phase alone. -/
theorem restOnlyRunsTheTimersDown : Obligations.RestOnlyRunsTheTimersDown := by
  intro s n hs
  induction n generalizing s with
  | zero => exact ⟨s, rfl, hs, rfl, rfl, rfl⟩
  | succ n ih =>
    obtain ⟨t, hrun, hrest, hframe, hdt, hst⟩ := ih s.tick hs.tick
    rw [State.tick_dt, toNat_countDown] at hdt
    rw [State.tick_st, toNat_countDown] at hst
    exact ⟨t, (core_run_succ n s s.tick (step_of_atRest hs)).trans hrun, hrest, hframe,
      by omega, by omega⟩

/-! ### The load helper -/

/-- The table bytes of a whole word are its two bytes. -/
theorem tableBytes_toNat (w : Word) : tableBytes 16 w.toNat = bytesOfWord w := by
  rw [tableBytes, Nat.mod_eq_of_lt w.isLt, BitVec.ofNat_toNat, BitVec.setWidth_eq]

/-- Two bytes stored at PC are the word fetched from there (20_memory.md R57, R60). -/
theorem State.fetchWord_writeMem_pc (hm : s.mem.wf = true) (hpc : s.pc.toNat ≤ lastFetch)
    (w : Word) :
    (s.writeMem s.pc.toNat (bytesOfWord w)).fetchWord = w := by
  have hfits : s.pc.toNat + (bytesOfWord w).length ≤ Config.memSize := by
    rw [lastFetch] at hpc
    simp only [bytesOfWord, List.length_cons, List.length_nil, Config.memSize]
    omega
  rw [fetchWord, writeMem_pc, readMem_writeMem hm hfits, readMem_writeMem hm hfits]
  simpa [bytesOfWord] using wordOfBytes_extract w

/-- A state ready to fetch runs the instruction whose word is stored at PC. -/
theorem State.runs_writeMem_pc (hm : s.mem.wf = true) (hf : s.fault = none)
    (hpc : s.pc.toNat ≤ lastFetch) (i : Instr) :
    (s.writeMem s.pc.toNat (bytesOfWord (encode i))).runs i := by
  refine ⟨hf, hpc, ?_⟩
  rw [fetchWord_writeMem_pc hm hpc, decodeWord_encode]

/-- Settles O10: the helper clears the fault, moves PC where it can be fetched from, and stores the
word there. -/
theorem placedWordIsTheNextInstruction : Obligations.PlacedWordIsTheNextInstruction := by
  intro s i hm
  have hbase : (0x200 : Word).toNat ≤ lastFetch := by decide
  rw [State.withFetchWord, tableBytes_toNat, State.placeAtPc]
  split
  next =>
    exact State.runs_writeMem_pc (s := { s.setPc 0x200 with fault := none }) hm rfl hbase i
  next hpc =>
    exact State.runs_writeMem_pc (s := { s with fault := none }) hm rfl (Nat.not_lt.mp hpc) i

end Sys2Proof.Machine
end

section
/-! PROOFS. The register-to-register operations that write VF: 8xy4 to 8xy7 and 8xyE (44_alu.md
section 3). Each writes two registers and advances, V[x] and VF in the order of R160; so what such
an instruction leaves is said once for any two registers, equal or not. -/

namespace Sys2Proof.Machine

/-! ### Two registers written, then the advance -/

/-- An instruction that writes V[a] and then V[b] leaves the second byte in V[b], and the first in
V[a] where that is another register. -/
theorem exec_writeV_writeV_spec {i : Instr} {s : State} {a b : Reg} {ua ub : Byte} {ks : List Reg}
    (hexec : exec i s = .next ((s.writeV a ua).writeV b ub).advance) (ha : a ∈ ks) (hb : b ∈ ks) :
    ∃ t, exec i s = .next t ∧ (a ≠ b → t.readV a = ua) ∧ t.readV b = ub ∧
      s.advanced t ∧ s.sameRegsBut t ks ∧ s.onlyRegsAndPc t := by
  refine ⟨_, hexec, fun hab => ?first, State.readV_writeV_self _ b ub,
    State.advanced_advance rfl, fun k hk => ?frame, rfl, fun _ => rfl⟩
  case first => exact (State.readV_writeV_of_ne _ hab ub).trans (s.readV_writeV_self a ua)
  case frame =>
    have hka : k ≠ a := fun h => hk (h ▸ ha)
    have hkb : k ≠ b := fun h => hk (h ▸ hb)
    exact s.readV_writeV_writeV_of_ne hka hkb ua ub

/-- A flag as a number. -/
theorem toNat_flagByte (p : Prop) [Decidable p] :
    (flagByte (decide p)).toNat = if p then 1 else 0 := by
  by_cases hp : p
  · rw [if_pos hp, decide_eq_true hp]; rfl
  · rw [if_neg hp, decide_eq_false hp]; rfl

/-- The 8-bit difference is the difference of the numbers modulo 256. -/
theorem toNat_sub_eq_emod (a b : Byte) :
    ((a - b).toNat : Int) = (a.toNat - b.toNat : Int) % 256 := by
  rw [BitVec.toNat_sub]
  omega

/-- An instruction that writes a difference to V[x] and then its flag to VF leaves the difference of
the numbers modulo 256, and whether it borrowed. -/
theorem exec_sub_spec {i : Instr} {s : State} {x : Reg} {a b : Byte}
    (hexec : exec i s = .next ((s.writeV x (a - b)).writeV vf (notBorrowFlag a b)).advance) :
    ∃ t, exec i s = .next t ∧
      (x ≠ vf → ((t.readV x).toNat : Int) = (a.toNat - b.toNat : Int) % 256) ∧
      (t.readV vf).toNat = (if b.toNat ≤ a.toNat then 1 else 0) ∧
      s.advanced t ∧ s.sameRegsBut t [x, vf] ∧ s.onlyRegsAndPc t := by
  obtain ⟨t, hexec, hdiff, hflag, hframe⟩ :=
    exec_writeV_writeV_spec hexec (ks := [x, vf]) (by simp) (by simp)
  refine ⟨t, hexec, fun hx => ?_, ?_, hframe⟩
  · rw [hdiff hx, toNat_sub_eq_emod]
  · rw [hflag]
    exact toNat_flagByte _

/-! ### What each instruction writes -/

section Exec

variable (x y : Reg) (s : State)

/-- What 8xy4 does (R154). -/
theorem exec_addReg : exec (.addReg x y) s =
    .next ((s.writeV x (s.readV x + s.readV y)).writeV vf
      (carryFlag (s.readV x) (s.readV y))).advance := rfl

/-- What 8xy5 does (R155). -/
theorem exec_subReg : exec (.subReg x y) s =
    .next ((s.writeV x (s.readV x - s.readV y)).writeV vf
      (notBorrowFlag (s.readV x) (s.readV y))).advance := rfl

/-- What 8xy7 does (R157). -/
theorem exec_subnReg : exec (.subnReg x y) s =
    .next ((s.writeV x (s.readV y - s.readV x)).writeV vf
      (notBorrowFlag (s.readV y) (s.readV x))).advance := rfl

/-- What 8xy6 does (R156): V[x] is read again after the flag is written. -/
theorem exec_shr : exec (.shr x y) s =
    .next ((s.writeV vf (shrFlag (s.readV x))).writeV x
      ((s.writeV vf (shrFlag (s.readV x))).readV x >>> 1)).advance := rfl

/-- What 8xyE does (R158): V[x] is read again after the flag is written. -/
theorem exec_shl : exec (.shl x y) s =
    .next ((s.writeV vf (shlFlag (s.readV x))).writeV x
      ((s.writeV vf (shlFlag (s.readV x))).readV x <<< 1)).advance := rfl

end Exec

/-! ### The shifted bytes -/

/-- The bit that 8xy6 sets in VF is shifted out again where V[x] is VF. -/
theorem toNat_shrFlag_shiftRight (a : Byte) : (shrFlag a >>> 1).toNat = a.toNat / 2 := by
  rw [shrFlag, BitVec.ushiftRight_or_distrib, BitVec.toNat_or, BitVec.toNat_ushiftRight,
    Nat.shiftRight_eq_div_pow]
  exact Nat.or_zero _

theorem toNat_shiftRight_one (a : Byte) : (a >>> 1).toNat = a.toNat / 2 := by
  rw [BitVec.toNat_ushiftRight, Nat.shiftRight_eq_div_pow, Nat.pow_one]

theorem toNat_shiftLeft_one (a : Byte) : (a <<< 1).toNat = a.toNat * 2 % 256 := by
  rw [BitVec.toNat_shiftLeft, Nat.shiftLeft_eq, Nat.pow_one]

/-! ### The obligations -/

/-- Settles O34: V[x] takes the 8-bit sum, then VF the carry, which stands for `x` = 15. -/
theorem addSetsTheCarry : Obligations.AddSetsTheCarry := by
  intro x y s
  obtain ⟨t, hexec, hsum, hflag, hframe⟩ :=
    exec_writeV_writeV_spec (exec_addReg x y s) (ks := [x, vf]) (by simp) (by simp)
  refine ⟨t, hexec, fun hx => ?_, ?_, hframe⟩
  · rw [hsum hx, BitVec.toNat_add]
  · rw [hflag]
    exact toNat_flagByte _

/-- Settles O35: V[x] takes the 8-bit difference and then VF the comparison of the operands, so for
`x` = 15 the flag stands. -/
theorem subtractionsSetNotBorrow : Obligations.SubtractionsSetNotBorrow := by
  intro x y s
  constructor
  · exact exec_sub_spec (exec_subReg x y s)
  · exact exec_sub_spec (exec_subnReg x y s)

/-- Settles O36: VF takes its byte first; V[x] is then read again, which sees that byte exactly for
`x` = 15. -/
theorem shiftsPutAnOrInTheFlag : Obligations.ShiftsPutAnOrInTheFlag := by
  intro x y s
  constructor
  · obtain ⟨t, hexec, hflag, hshift, hframe⟩ :=
      exec_writeV_writeV_spec (exec_shr x y s) (ks := [x, vf]) (by simp) (by simp)
    refine ⟨t, hexec, fun hx => ⟨?_, hflag (Ne.symm hx)⟩, ?_, hframe⟩
    · rw [hshift, State.readV_writeV_of_ne s hx, toNat_shiftRight_one]
    · rintro rfl
      rw [hshift, State.readV_writeV_self, toNat_shrFlag_shiftRight]
  · obtain ⟨t, hexec, hflag, hshift, hframe⟩ :=
      exec_writeV_writeV_spec (exec_shl x y s) (ks := [x, vf]) (by simp) (by simp)
    refine ⟨t, hexec, fun hx => ⟨?_, hflag (Ne.symm hx)⟩, ?_, hframe⟩
    · rw [hshift, State.readV_writeV_of_ne s hx, toNat_shiftLeft_one]
    · rintro rfl
      rw [hshift, State.readV_writeV_self, toNat_shiftLeft_one, shlFlag]

end Sys2Proof.Machine
end

section
/-! PROOFS. Instructions that write one register or timer of their own: the key skips without a key
(42_skips.md), Bnnn (41_control_flow.md R123), Cxnn (43_immediate_random.md R143), the timer and key
transfers (46_timers_keys.md) and Fx1E (47_index_memory.md R190). -/

namespace Sys2Proof.Machine

variable (x : Reg) (nn : Byte) (s : State)

/-! ### What each instruction does -/

/-- What Bnnn does (R123). -/
theorem exec_jpV0 (nnn : BitVec 12) :
    exec (.jpV0 nnn) s = .next (s.setPc (zextReg (s.readV 0) + zext16 nnn)) := rfl

/-- What Cxnn does (R143). -/
theorem exec_rnd : exec (.rnd x nn) s = .next (s.countDraw.writeV x (s.rand &&& nn)).advance := rfl

/-- What Fx07 does (R180). -/
theorem exec_ldVxDt : exec (.ldVxDt x) s = .next (s.writeV x s.dt).advance := rfl

/-- What Fx0A does (R181). -/
theorem exec_ldVxK : exec (.ldVxK x) s = .next (s.writeV x s.key).advance := rfl

/-- What Fx15 does (R182). -/
theorem exec_ldDtVx : exec (.ldDtVx x) s = .next (s.setDt (s.readV x)).advance := rfl

/-- What Fx18 does (R183). -/
theorem exec_ldStVx : exec (.ldStVx x) s = .next (s.setSt (s.readV x)).advance := rfl

/-- What Fx1E does (R190). -/
theorem exec_addI : exec (.addI x) s = .next (s.setI (s.i + zextReg (s.readV x))).advance := rfl

/-! ### The obligations -/

/-- `KEY_NONE` is no key code (00_scope.md section 4). -/
theorem toNat_keyNone : 15 < Config.keyNone.toNat := by
  have hexcess := Config.keyNoneExcess.isLt
  rw [Config.keyNone, BitVec.toNat_ofNat]
  omega

/-- Settles O27: the latch and the register differ, since one is above 15 and the other is not. -/
theorem noKeyMatchesNoKeyCode : Obligations.NoKeyMatchesNoKeyCode := by
  intro x s hkey hcode
  have hne : s.key ≠ s.readV x := by
    intro h
    rw [← h, hkey] at hcode
    exact absurd toNat_keyNone (Nat.not_lt.mpr hcode)
  rw [exec_skp, exec_sknp, beq_false_of_ne hne, bne_iff_ne.mpr hne]
  exact ⟨rfl, rfl⟩

/-- Settles O21: PC takes the sum of the two numbers, which fits. -/
theorem offsetJumpAddsV0 : Obligations.OffsetJumpAddsV0 := by
  intro nnn s
  exact ⟨_, exec_jpV0 s nnn, toNat_zextReg_add_zext16 (s.readV 0) nnn, s.onlyPc_setPc _⟩

/-- No bit outside the mask is left. -/
theorem and_and_not_self (a m : Byte) : a &&& m &&& ~~~m = 0 := by
  rw [BitVec.and_assoc, BitVec.and_not_self]
  exact BitVec.and_zero

/-- Settles O31: V[x] takes the masked byte of this draw, and the draw is counted. -/
theorem randomByteIsMasked : Obligations.RandomByteIsMasked := by
  intro x nn s
  have hbyte : (s.countDraw.writeV x (s.rand &&& nn)).readV x = s.rand &&& nn :=
    State.readV_writeV_self _ x _
  refine ⟨_, exec_rnd x nn s, hbyte, ?_, rfl, State.advanced_advance rfl, ?_, rfl, fun _ => rfl⟩
  · rw [State.readV_advance, hbyte, and_and_not_self]
  · exact s.countDraw.sameRegsBut_writeV (List.mem_singleton_self x) _

/-- Settles O43: I takes the 16-bit sum. -/
theorem addToIndexWraps : Obligations.AddToIndexWraps := by
  intro x s
  refine ⟨_, exec_addI x s, ?_, s.setI_advance_frame _⟩
  rw [State.advance_i, State.setI_i, BitVec.toNat_add, toNat_zextReg]

/-- Settles O41: each writes one byte to V[x]; the timer phase that ends the step counts DT down and
reads no register. -/
theorem timerAndKeyReadsFillTheRegister : Obligations.TimerAndKeyReadsFillTheRegister := by
  intro x s
  refine ⟨exec_writeV_spec (exec_ldVxDt x s), fun hruns => ?_, exec_writeV_spec (exec_ldVxK x s)⟩
  exact ⟨_, step_of_runs_of_no_fault hruns (exec_ldVxDt x s) hruns.1,
    s.readV_writeV_self x s.dt, toNat_countDown s.dt⟩

/-- Settles O42: each writes one timer; the timer phase that ends the step counts the new value
down. -/
theorem timerWritesTakeTheRegister : Obligations.TimerWritesTakeTheRegister := by
  intro x s
  refine ⟨?_, fun hruns => ?_, ?_, fun hruns => ?_⟩
  · exact ⟨_, exec_ldDtVx x s, rfl, State.advanced_advance rfl, rfl, fun _ => rfl⟩
  · exact ⟨_, step_of_runs_of_no_fault hruns (exec_ldDtVx x s) hruns.1, toNat_countDown _⟩
  · exact ⟨_, exec_ldStVx x s, rfl, State.advanced_advance rfl, rfl, fun _ => rfl⟩
  · exact ⟨_, step_of_runs_of_no_fault hruns (exec_ldStVx x s) hruns.1, toNat_countDown _⟩

end Sys2Proof.Machine
end

section
/-! PROOFS. Call and return (41_control_flow.md R120, R122; decisions D9, D10), and nests of them.
Both are `State.check` and `State.complete` with the check a test of SP; a nest is an induction on
its targets, the outermost call first. -/

namespace Sys2Proof.Machine

variable {s t u : State}

/-! ### One call, one return -/

/-- 00EE with SP on a slot (R120). -/
theorem exec_ret_of_le {slot : Word} (hsp : s.sp.toNat ≤ 15)
    (hslot : s.readStack s.sp.toNat = some slot) :
    exec .ret s = .next ((s.setSp (s.sp - 1)).setPc (slot + 2)) := by
  rw [exec_of_check_none ((check_ret s).trans (if_pos hsp)), State.complete, hslot]
  rfl

/-- 2nnn with the next SP on a slot (R122). -/
theorem exec_call_of_le (nnn : BitVec 12) (hsp : (s.sp + 1).toNat ≤ 15) :
    exec (.call nnn) s =
      .next (((s.setSp (s.sp + 1)).writeStack (s.sp + 1).toNat s.pc).setPc (zext16 nnn)) :=
  exec_of_check_none (if_pos hsp)

/-- Two changes of nothing but SP, stack and PC are one. -/
theorem State.onlyStackAndPc.trans (hst : s.onlyStackAndPc t) (htu : t.onlyStackAndPc u) :
    s.onlyStackAndPc u := by
  obtain ⟨ht, hmemt⟩ := hst
  obtain ⟨hu, hmemu⟩ := htu
  refine ⟨?_, fun a => (hmemu a).trans (hmemt a)⟩
  rw [hu, ht]

/-- What a call leaves (R122). -/
theorem exec_call_spec (nnn : BitVec 12) (hsp : (s.sp + 1).toNat ≤ 15) :
    ∃ t, exec (.call nnn) s = .next t ∧ t.sp = s.sp + 1 ∧ t.pc = zext16 nnn ∧
      (∀ k, t.readStack k = if k = (s.sp + 1).toNat then some s.pc else s.readStack k) ∧
      s.onlyStackAndPc t := by
  refine ⟨_, exec_call_of_le nnn hsp, rfl, rfl, fun k => ?_, rfl, fun _ => rfl⟩
  exact State.readStack_writeStack _ (by omega) k s.pc

/-- What a return leaves (R120). -/
theorem exec_ret_spec {slot : Word} (hsp : s.sp.toNat ≤ 15)
    (hslot : s.readStack s.sp.toNat = some slot) :
    ∃ t, exec .ret s = .next t ∧ t.sp = s.sp - 1 ∧ t.pc = slot + 2 ∧ t.stack = s.stack ∧
      s.onlyStackAndPc t :=
  ⟨_, exec_ret_of_le hsp hslot, rfl, rfl, rfl, rfl, fun _ => rfl⟩

/-- Two past an address, modulo 65536. -/
theorem toNat_add_two (w : Word) : (w + 2).toNat = (w.toNat + 2) % 65536 := BitVec.toNat_add w 2

/-- The next SP, modulo 256. -/
theorem toNat_sp_add_one (b : Byte) : (b + 1).toNat = (b.toNat + 1) % 256 := BitVec.toNat_add b 1

/-! ### Lists of instructions -/

theorem execAll_append_of_next {is js : List Instr} (h : execAll is s = .next t) :
    execAll (is ++ js) s = execAll js t := by
  induction is generalizing s with
  | nil =>
    cases h
    rfl
  | cons i is ih =>
    obtain ⟨u, hu⟩ := exec_total i s
    simp only [execAll, hu, List.cons_append] at h ⊢
    exact ih h

/-- The calls of a nest, then as many returns. -/
def nest (targets : List (BitVec 12)) : List Instr :=
  targets.map .call ++ List.replicate targets.length .ret

/-- The outermost call comes first and its return last. -/
theorem nest_cons (nnn : BitVec 12) (targets : List (BitVec 12)) :
    nest (nnn :: targets) = .call nnn :: (nest targets ++ [.ret]) := by
  simp [nest, List.replicate_succ']

/-- A nest that fits above SP comes back with SP, and every slot up to it, as they were; where there
was a call at all, PC is two past the first one. -/
theorem execAll_nest (targets : List (BitVec 12)) (s : State)
    (hfits : s.sp.toNat + targets.length ≤ 15) :
    ∃ t, execAll (nest targets) s = .next t ∧ t.sp = s.sp ∧
      (targets ≠ [] → t.pc = s.pc + 2) ∧
      (∀ k ≤ s.sp.toNat, t.readStack k = s.readStack k) ∧ s.onlyStackAndPc t := by
  induction targets generalizing s with
  | nil => exact ⟨s, rfl, rfl, fun h => absurd rfl h, fun _ _ => rfl, rfl, fun _ => rfl⟩
  | cons nnn targets ih =>
    rw [List.length_cons] at hfits
    have hnext : (s.sp + 1).toNat = s.sp.toNat + 1 := by rw [toNat_sp_add_one]; omega
    obtain ⟨a, hcall, hasp, -, haslots, haframe⟩ := exec_call_spec (s := s) nnn (by omega)
    obtain ⟨b, hinner, hbsp, -, hbslots, hbframe⟩ := ih a (by rw [hasp]; omega)
    rw [hasp] at hbsp hbslots
    have hsite : b.readStack b.sp.toNat = some s.pc := by
      rw [hbsp, hbslots _ (Nat.le_refl _), haslots, if_pos rfl]
    obtain ⟨t, hret, htsp, htpc, htstack, htframe⟩ := exec_ret_spec (by rw [hbsp]; omega) hsite
    refine ⟨t, ?run, ?sp, fun _ => htpc, fun k hk => ?slots, (haframe.trans hbframe).trans htframe⟩
    case run =>
      rw [nest_cons, execAll, hcall]
      change execAll (nest targets ++ [.ret]) a = .next t
      rw [execAll_append_of_next hinner, execAll, hret]
      rfl
    case sp => rw [htsp, hbsp, BitVec.add_sub_cancel]
    case slots =>
      calc t.readStack k
          _ = b.readStack k := congrArg (·[k]?) htstack
          _ = a.readStack k := hbslots k (by omega)
          _ = s.readStack k := by rw [haslots, if_neg (by omega)]

/-! ### The obligations -/

/-- Settles O18: the check of 00EE is whether SP is a slot. -/
theorem returnGoesToTheSlotPlusTwo : Obligations.ReturnGoesToTheSlotPlusTwo := by
  intro s
  refine ⟨fun hsp => ?_, fun hsp => exec_of_check_some (if_neg (Nat.not_le.mpr hsp))⟩
  have hslot := s.readStack_of_le (k := s.sp.toNat) (by omega)
  obtain ⟨t, hret, htsp, htpc, htstack, htframe⟩ := exec_ret_spec hsp hslot
  refine ⟨t, _, hret, hslot, ?_, ?_, htframe, htstack⟩
  · rw [htpc, toNat_add_two]
  · rw [htsp]
    exact (BitVec.toNat_sub s.sp 1).trans (congrArg (· % 256) (Nat.add_comm 255 s.sp.toNat))

/-- Settles O20: the check of 2nnn is whether the next SP is a slot, and that slot takes the call
site. -/
theorem callPushesTheCallSite : Obligations.CallPushesTheCallSite := by
  intro nnn s
  rw [← toNat_sp_add_one]
  refine ⟨fun hsp => ?_, fun hsp => exec_of_check_some (if_neg (Nat.not_le.mpr hsp))⟩
  obtain ⟨t, hcall, htsp, htpc, hslots, htframe⟩ := exec_call_spec nnn hsp
  refine ⟨t, hcall, by rw [htsp], ?_, fun k hk => ?_, ?_, htframe⟩
  · rw [hslots, htsp, if_pos rfl]
  · rw [hslots, if_neg (htsp ▸ hk)]
  · rw [htpc, toNat_zext16]

/-- Settles O22: the return reads the slot the call has just written. -/
theorem callThenReturnComesBack : Obligations.CallThenReturnComesBack := by
  intro nnn s hsp
  rw [← toNat_sp_add_one] at hsp
  obtain ⟨t, hcall, htsp, -, hslots, -⟩ := exec_call_spec nnn hsp
  have hsite : t.readStack t.sp.toNat = some s.pc := by rw [hslots, htsp, if_pos rfl]
  obtain ⟨u, hret, husp, hupc, -, -⟩ := exec_ret_spec (htsp ▸ hsp) hsite
  refine ⟨t, u, hcall, hret, ?_, ?_⟩
  · rw [husp, htsp, BitVec.add_sub_cancel]
  · rw [hupc, toNat_add_two]

/-- Settles O23, by induction on the targets: the inner nest leaves the slot of the outermost call
alone, and the last return reads it. -/
theorem nestedCallsReturnInReverseOrder : Obligations.NestedCallsReturnInReverseOrder := by
  intro targets s hne hfits
  obtain ⟨t, hrun, hsp, hpc, hslots, hframe⟩ := execAll_nest targets s hfits
  exact ⟨t, hrun, hsp, by rw [hpc hne, toNat_add_two], hslots, hframe⟩

end Sys2Proof.Machine
end

section
/-! PROOFS. Memory transfers: Fx33, Fx55 and Fx65 (47_index_memory.md R192 to R194), and a fetch
after a store (20_memory.md section 9). What a store of consecutive bytes at I leaves is said once
for any bytes. -/

namespace Sys2Proof.Machine

variable {s t : State}

/-! ### Stores at I -/

/-- An instruction that stores bytes at I and advances leaves each at its own address and changes
nothing else of memory. -/
theorem exec_store_spec {i : Instr} {us : List Byte} (hm : s.mem.wf = true)
    (hfits : s.i.toNat + us.length ≤ 0x1000)
    (hexec : exec i s = .next (s.writeMem s.i.toNat us).advance) :
    ∃ t, exec i s = .next t ∧
      (∀ k (hk : k < us.length), t.readMem (s.i.toNat + k) = us[k]) ∧
      (∀ a, a < s.i.toNat ∨ s.i.toNat + us.length ≤ a → t.readMem a = s.readMem a) ∧
      s.advanced t ∧ s.onlyMemAndPc t := by
  refine ⟨_, hexec, fun k hk => ?stored, fun a ha => ?kept, State.advanced_advance rfl, rfl⟩
  case stored =>
    rw [State.readMem_advance, State.readMem_writeMem hm hfits, if_pos (by omega),
      Nat.add_sub_cancel_left, List.getD_eq_getElem us 0 hk]
  case kept =>
    rw [State.readMem_advance, State.readMem_writeMem hm hfits, if_neg (by omega)]

/-- What Fx33 does in range (R192). -/
theorem exec_ldB_of_le {x : Reg} (h : s.i.toNat + 2 ≤ 0xFFF) : exec (.ldB x) s =
    .next (s.writeMem s.i.toNat (decimalDigits (s.readV x))).advance :=
  exec_of_check_none ((check_ldB x s).trans (if_pos h))

/-- What Fx55 does in range (R193). -/
theorem exec_storeRegs_of_le {x : Reg} (h : s.i.toNat + x.val ≤ 0xFFF) : exec (.storeRegs x) s =
    .next (s.writeMem s.i.toNat ((regsUpTo x).map s.readV)).advance :=
  exec_of_check_none ((check_storeRegs x s).trans (if_pos h))

/-- What Fx65 does in range (R194). -/
theorem exec_loadRegs_of_le {x : Reg} (h : s.i.toNat + x.val ≤ 0xFFF) : exec (.loadRegs x) s =
    .next (loadFrom s.i s (regsUpTo x)).advance :=
  exec_of_check_none ((check_loadRegs x s).trans (if_pos h))

/-- The byte of a number below 256 is that number. -/
theorem toNat_ofNat_of_lt {n : Nat} (h : n < 256) : (BitVec.ofNat 8 n).toNat = n := by
  rw [BitVec.toNat_ofNat]
  exact Nat.mod_eq_of_lt h

/-- Register k stands at place k of the range. -/
theorem getElem_regsUpTo {x k : Reg} (h : k.val < (regsUpTo x).length) :
    (regsUpTo x)[k.val] = k := by
  have hall : ∀ k : Reg, allRegs[k.val]? = some k := by decide
  obtain ⟨_, hk⟩ := List.getElem?_eq_some_iff.mp (hall k)
  exact List.getElem_take.trans hk

/-- The registers Fx55 stores, each at its own address. -/
theorem exec_storeRegs_spec {x : Reg} (hm : s.mem.wf = true) (h : s.i.toNat + x.val ≤ 0xFFF) :
    ∃ t, exec (.storeRegs x) s = .next t ∧
      (∀ k ≤ x, t.readMem (s.i.toNat + k.val) = s.readV k) ∧
      (∀ a, (a < s.i.toNat ∨ s.i.toNat + x.val < a) → t.readMem a = s.readMem a) ∧
      s.advanced t ∧ s.onlyMemAndPc t := by
  have hlen : ((regsUpTo x).map s.readV).length = x.val + 1 := by
    rw [List.length_map, length_regsUpTo]
  obtain ⟨t, hexec, hstored, hkept, hframe⟩ :=
    exec_store_spec hm (by omega) (exec_storeRegs_of_le h)
  refine ⟨t, hexec, fun k hk => ?_, fun a ha => hkept a (by omega), hframe⟩
  have hplace : k.val < ((regsUpTo x).map s.readV).length := hlen ▸ Nat.lt_succ_of_le hk
  rw [hstored k.val hplace, List.getElem_map, getElem_regsUpTo]

/-- Loading registers and advancing changes the V file and PC alone. -/
theorem onlyRegsAndPc_loadFrom_advance (s : State) (base : Word) (ks : List Reg) :
    s.onlyRegsAndPc (loadFrom base s ks).advance := by
  obtain ⟨v, hv⟩ : ∃ v, loadFrom base s ks = { s with v := v } := ⟨_, loadFrom_frame s base ks⟩
  rw [hv]
  exact ⟨rfl, fun _ => rfl⟩

/-! ### The obligations -/

/-- Settles O45: the three bytes stored are the digits, each below 256; the check names the lowest
bad address. -/
theorem decimalDigitsAreStored : Obligations.DecimalDigitsAreStored := by
  intro x s hm
  refine ⟨fun h => ?_, fun h => ?_⟩
  · have hlen : (decimalDigits (s.readV x)).length = 3 := rfl
    obtain ⟨t, hexec, hstored, hkept, hframe⟩ :=
      exec_store_spec hm (by omega) (exec_ldB_of_le (x := x) h)
    refine ⟨t, hexec, ?hundreds, ?tens, ?units, fun a ha => hkept a (by omega), hframe⟩
    case hundreds =>
      rw [← Nat.add_zero s.i.toNat, hstored 0 (by omega)]
      exact toNat_ofNat_of_lt (n := (s.readV x).toNat / 100) (by omega)
    case tens =>
      rw [hstored 1 (by omega)]
      exact toNat_ofNat_of_lt (n := (s.readV x).toNat / 10 % 10) (by omega)
    case units =>
      rw [hstored 2 (by omega)]
      exact toNat_ofNat_of_lt (n := (s.readV x).toNat % 10) (by omega)
  · exact exec_of_check_some ((check_ldB x s).trans (if_neg (by omega)))

/-- Settles O46: the bytes stored are the registers in order; the check names the lowest bad
address. -/
theorem registersAreStored : Obligations.RegistersAreStored := by
  intro x s hm
  refine ⟨exec_storeRegs_spec hm, fun h => ?_⟩
  exact exec_of_check_some ((check_storeRegs x s).trans (if_neg (by omega)))

/-- Settles O47: each register up to x reads its own address; the check names the lowest bad
address. -/
theorem registersAreLoaded : Obligations.RegistersAreLoaded := by
  intro x s
  refine ⟨fun h => ?_, fun h => ?_⟩
  · refine ⟨_, exec_loadRegs_of_le h, fun k hk => ?loaded, fun k hk => ?kept,
      State.advanced_advance (loadFrom_pc ..), onlyRegsAndPc_loadFrom_advance ..⟩
    case loaded => exact (readV_loadFrom ..).trans (if_pos ((mem_regsUpTo x k).mpr hk))
    case kept =>
      have hnot : k ∉ regsUpTo x := fun hmem => absurd ((mem_regsUpTo x k).mp hmem) (not_le.mpr hk)
      exact (readV_loadFrom ..).trans (if_neg hnot)
  · exact exec_of_check_some ((check_loadRegs x s).trans (if_neg (by omega)))

/-- Settles O48: the two addresses fetched from are those of the two registers, and the first is the
high byte. -/
theorem storedBytesAreFetchedNext : Obligations.StoredBytesAreFetchedNext := by
  intro x k j s t hm hrange ht hjk hjx
  obtain ⟨t', hexec, hstored, -⟩ := exec_storeRegs_spec hm hrange
  obtain rfl : t' = t := Host.Outcome.next.inj (hexec.symm.trans ht)
  have hkx : k ≤ x := le_trans (Fin.le_def.mpr (by omega)) hjx
  have hpc : (s.i + BitVec.ofNat 16 k.val).toNat = s.i.toNat + k.val := by
    rw [BitVec.toNat_add, BitVec.toNat_ofNat]
    omega
  rw [State.fetchWord, State.setPc_pc, hpc, State.readMem_setPc, State.readMem_setPc, Nat.add_assoc,
    ← hjk, hstored k hkx, hstored j hjx, wordOfBytes]

end Sys2Proof.Machine
end

section
/-! PROOFS. Dxyn (45_display.md R171; decisions D7, D12, D13). The rows of one draw meet different
display bytes, so each is XORed once, with the byte it held before the draw; the check stops at the
first row out of range. -/

namespace Sys2Proof.Machine

variable {s t : State} {base : Word} {vx vy : Byte} {rs : List Nat}

/-! ### The rows -/

/-- A display byte no row meets is as before. -/
theorem readDisp_drawRows_of_ne {k : Nat} (hidx : ∀ r ∈ rs, displayIndex vx vy r ≤ 255)
    (hk : ∀ r ∈ rs, k ≠ displayIndex vx vy r) :
    (drawRows base vx vy s rs).readDisp k = s.readDisp k := by
  induction rs generalizing s with
  | nil => rfl
  | cons r rs ih =>
    rw [List.forall_mem_cons] at hidx hk
    rw [drawRows, ih hidx.2 hk.2, State.readDisp_writeDisp _ (by omega), if_neg hk.1]

/-- The display byte a row meets is XORed with the row's sprite byte, once. -/
theorem readDisp_drawRows_of_mem {r : Nat} (hdistinct : rs.Nodup)
    (hidx : ∀ r ∈ rs, displayIndex vx vy r ≤ 255) (hr : r ∈ rs) :
    (drawRows base vx vy s rs).readDisp (displayIndex vx vy r) =
      s.readDisp (displayIndex vx vy r) ^^^ s.readMem (effAddr base r) := by
  induction rs generalizing s with
  | nil => cases hr
  | cons q rs ih =>
    rw [List.forall_mem_cons] at hidx
    obtain ⟨hq, hdistinct⟩ := List.nodup_cons.mp hdistinct
    rcases List.mem_cons.mp hr with rfl | hr
    · have hother : ∀ p ∈ rs, displayIndex vx vy r ≠ displayIndex vx vy p :=
        fun p hp h => hq (displayIndex_injective h ▸ hp)
      rw [drawRows, readDisp_drawRows_of_ne hidx.2 hother, State.readDisp_writeDisp _ (by omega),
        if_pos rfl]
    · have hne : displayIndex vx vy r ≠ displayIndex vx vy q :=
        fun h => hq (displayIndex_injective h ▸ hr)
      rw [drawRows, ih hdistinct hidx.2 hr, State.readDisp_writeDisp _ (by omega), if_neg hne,
        State.readMem_writeDisp]

/-- The collision: some row's sprite byte meets a lit pixel. -/
theorem drawHit_eq_true_iff : drawHit s base vx vy rs = true ↔
    ∃ r ∈ rs, s.readDisp (displayIndex vx vy r) &&& s.readMem (effAddr base r) ≠ 0 := by
  simp only [drawHit, pixelCleared, List.any_eq_true, bne_iff_ne]

/-! ### The check -/

/-- Rows in range leave the check to those after them. -/
theorem drawCheck_append {qs : List Nat} (h : drawCheck base vx vy rs = none) :
    drawCheck base vx vy (rs ++ qs) = drawCheck base vx vy qs := by
  induction rs with
  | nil => rfl
  | cons r rs ih =>
    have hall := drawCheck_eq_none.mp h
    rw [List.forall_mem_cons] at hall
    obtain ⟨⟨haddr, hindex⟩, hrest⟩ := hall
    rw [List.cons_append, drawCheck, if_neg (Nat.not_lt.mpr haddr), if_neg (Nat.not_lt.mpr hindex)]
    exact ih (drawCheck_eq_none.mpr hrest)

/-- The rows of a draw, split at one of them. -/
theorem range_eq_append_cons {r n : Nat} (h : r < n) :
    ∃ qs, List.range n = List.range r ++ r :: qs := by
  obtain ⟨m, rfl⟩ := Nat.exists_eq_add_of_lt h
  refine ⟨(List.range m).map (r + 1 + ·), ?_⟩
  rw [Nat.add_right_comm, List.range_add, List.range_succ, List.append_assoc]
  rfl

/-- The first row out of range decides (60_exceptions.md R208). -/
theorem drawCheck_range {r n : Nat} (hr : r < n)
    (hbefore : ∀ q < r, effAddr base q ≤ 0xFFF ∧ displayIndex vx vy q ≤ 255) :
    ∃ qs, drawCheck base vx vy (List.range n) = drawCheck base vx vy (r :: qs) := by
  obtain ⟨qs, hqs⟩ := range_eq_append_cons hr
  have hpass : drawCheck base vx vy (List.range r) = none :=
    drawCheck_eq_none.mpr fun q hq => hbefore q (List.mem_range.mp hq)
  exact ⟨qs, hqs ▸ drawCheck_append hpass⟩

/-- The check of Dxyn passes when every row is in range. -/
theorem check_drw_eq_none_iff {x y : Reg} {n : Nibble} : s.check (.drw x y n) = none ↔
    ∀ r < n.toNat, effAddr s.i r ≤ 0xFFF ∧ displayIndex (s.readV x) (s.readV y) r ≤ 255 := by
  simp only [State.check, drawCheck_eq_none, List.mem_range]

/-! ### A drawn state -/

/-- A completed draw changes the V file, PC and the display alone. -/
theorem complete_drw_frame (s : State) (x y : Reg) (n : Nibble) : s.complete (.drw x y n) =
    { s with
      v := (s.complete (.drw x y n)).v
      pc := (s.complete (.drw x y n)).pc
      disp := (s.complete (.drw x y n)).disp } := by
  obtain ⟨disp, hdisp⟩ : ∃ disp, drawRows s.i (s.readV x) (s.readV y) s (List.range n.toNat) =
    { s with disp := disp } := ⟨_, drawRows_frame ..⟩
  rw [State.complete, hdisp]
  rfl

/-- A completed draw leaves the collision with the display before it in VF. -/
theorem readV_vf_complete_drw (s : State) (x y : Reg) (n : Nibble) :
    (s.complete (.drw x y n)).readV vf =
      flagByte (drawHit s s.i (s.readV x) (s.readV y) (List.range n.toNat)) :=
  State.readV_writeV_self _ vf _

/-- Displays that read the same are the same. -/
theorem disp_eq_of_readDisp (h : ∀ k < 256, s.readDisp k = t.readDisp k) : s.disp = t.disp := by
  refine Vector.ext fun k hk => ?_
  have hread := h k hk
  simpa [State.readDisp, hk] using hread

/-- An execution that ends without a fault has passed its check. -/
theorem check_eq_none_of_no_fault {i : Instr} (h : exec i s = .next t) (hf : t.fault = none) :
    s.check i = none := by
  rcases exec_next_cases h with ⟨c, n, -, rfl⟩ | ⟨hc, -⟩
  · cases hf
  · exact hc

/-! ### The obligations -/

/-- Settles O38: every row is XORed once onto the byte it finds, VF is written last from what was
there before the draw. -/
theorem drawXorsTheSprite : Obligations.DrawXorsTheSprite := by
  intro x y n s idx hrange
  have hcheck : s.check (.drw x y n) = none := check_drw_eq_none_iff.mpr hrange
  have hidx : ∀ r ∈ List.range n.toNat, displayIndex (s.readV x) (s.readV y) r ≤ 255 :=
    fun r hr => (hrange r (List.mem_range.mp hr)).2
  have hvf := readV_vf_complete_drw s x y n
  refine ⟨_, exec_of_check_none hcheck, fun r hr => ?xored, fun k hk => ?kept, fun hhit => ?hit,
    fun hmiss => ?miss, fun k hk => ?regs, State.advanced_advance (drawRows_pc ..),
    complete_drw_frame s x y n, fun a => ?mem⟩
  case xored => exact readDisp_drawRows_of_mem List.nodup_range hidx (List.mem_range.mpr hr)
  case kept => exact readDisp_drawRows_of_ne hidx fun r hr => hk r (List.mem_range.mp hr)
  case hit =>
    obtain ⟨r, hr, hlit⟩ := hhit
    rw [hvf, drawHit_eq_true_iff.mpr ⟨r, List.mem_range.mpr hr, hlit⟩]
    rfl
  case miss =>
    have hnone : drawHit s s.i (s.readV x) (s.readV y) (List.range n.toNat) = false := by
      rw [← Bool.not_eq_true, drawHit_eq_true_iff]
      rintro ⟨r, hr, hlit⟩
      exact hlit (hmiss r (List.mem_range.mp hr))
    rw [hvf, hnone]
    rfl
  case regs =>
    exact readV_complete (i := .drw x y n) (decide_eq_false fun h => hk (List.mem_singleton.mpr h))
  case mem => exact congrArg (Memory.read · a) (complete_mem (i := .drw x y n) rfl)

/-- Settles O39: the check passes the rows before the first one out of range and reports that one,
its address before its index. -/
theorem drawFaultsAtTheFirstBadRow : Obligations.DrawFaultsAtTheFirstBadRow := by
  intro x y n s r idx hr hbefore
  obtain ⟨qs, hcheck⟩ :=
    drawCheck_range (base := s.i) (vx := s.readV x) (vy := s.readV y) hr hbefore
  refine ⟨fun haddr => ?_, fun haddr hindex => ?_⟩
  · exact exec_of_check_some (hcheck.trans (if_pos haddr))
  · exact exec_of_check_some (hcheck.trans ((if_neg (Nat.not_lt.mpr haddr)).trans (if_pos hindex)))

/-- Settles O40: the first draw leaves coordinates, I and memory as they were, so the second one
passes the same check and XORs the same bytes onto the same places. -/
theorem drawingTwiceRestoresTheDisplay : Obligations.DrawingTwiceRestoresTheDisplay := by
  intro x y n s t u hx hy hf ht htf hu
  have hrange := check_drw_eq_none_iff.mp (check_eq_none_of_no_fault ht htf)
  obtain ⟨t', ht', htmem, htother, -, -, htregs, -, htframe, htsame⟩ :=
    drawXorsTheSprite x y n s hrange
  obtain rfl : t' = t := Host.Outcome.next.inj (ht'.symm.trans ht)
  have hvx : t'.readV x = s.readV x := htregs x (by simpa using hx)
  have hvy : t'.readV y = s.readV y := htregs y (by simpa using hy)
  have hi : t'.i = s.i := by rw [htframe]
  have hsecond := drawXorsTheSprite x y n t'
  rw [hvx, hvy, hi] at hsecond
  obtain ⟨u', hu', humem, huother, -, -, -, -, huframe, -⟩ := hsecond hrange
  obtain rfl : u' = u := Host.Outcome.next.inj (hu'.symm.trans hu)
  refine ⟨disp_eq_of_readDisp fun k _ => ?_, by rw [huframe]; exact htf⟩
  by_cases hk : ∃ r < n.toNat, k = displayIndex (s.readV x) (s.readV y) r
  · obtain ⟨r, hr, rfl⟩ := hk
    calc u'.readDisp (displayIndex (s.readV x) (s.readV y) r)
        _ = t'.readDisp (displayIndex (s.readV x) (s.readV y) r) ^^^ t'.readMem (s.i.toNat + r) :=
          humem r hr
        _ = s.readDisp (displayIndex (s.readV x) (s.readV y) r) ^^^ s.readMem (s.i.toNat + r) ^^^
            s.readMem (s.i.toNat + r) := by rw [htsame]; exact congrArg (· ^^^ _) (htmem r hr)
        _ = s.readDisp (displayIndex (s.readV x) (s.readV y) r) := by
          rw [BitVec.xor_assoc, BitVec.xor_self, BitVec.xor_zero]
  · have hne : ∀ r < n.toNat, k ≠ displayIndex (s.readV x) (s.readV y) r :=
      fun r hr h => hk ⟨r, hr, h⟩
    exact (huother k hne).trans (htother k hne)

end Sys2Proof.Machine
end
